-- ==== Sys2Proof/Word.lean ====
section
/-! DEFINITION. The bit vectors of the machine. Every value is unsigned (R8); bit 0 is the least
significant bit (R7). -/

namespace Sys2Proof

/-- A general register, a timer, a memory byte: 8 bits (R20, R25, R26, R28). -/
abbrev Byte := BitVec 8

/-- `pc`, `I`, a return-stack slot, an opcode: 16 bits (R22, R23, R24, R90). -/
abbrev Word := BitVec 16

/-- The fields `x`, `y` and `n` of an opcode: 4 bits (R91). As `x` or `y` it is a register index,
and every value is a legal one (R35). -/
abbrev Nibble := BitVec 4

/-- The field `nnn` of an opcode: 12 bits (R91). -/
abbrev Addr12 := BitVec 12

end Sys2Proof
end

