-- ==== Sys2Proof/Config.lean ====
section
/-! DEFINITION. The constants of R6, the parameters the spec leaves open, and the free values. A
constant without a body is a free value: nothing can be proved about which value it is. -/

namespace Sys2Proof

/-- One call `set(key, pressed)` of the input collaborator (R191). The index has 4 bits, so an
event outside 0 to 15, which is no input of the machine (U7), cannot be written down. -/
structure KeyEvent where
  key : Nibble
  pressed : Bool
deriving DecidableEq, Repr

namespace Config

/-- `MEM_SIZE`: the addressable bytes (R6, R60). -/
@[simp] abbrev memSize : Nat := 4096

/-- `PROG_BASE`: the load address and the reset value of `pc` (R6, R23). -/
@[simp] abbrev progBase : Nat := 0x200

/-- `ROM_MAX`: the longest loadable program (R6, R74; C3 settles 3584 against 3583). -/
@[simp] abbrev romMax : Nat := 3584

/-- `STACK_DEPTH`: the slots of the return stack (R6, R24). -/
@[simp] abbrev stackDepth : Nat := 16

/-- `DISP_W`: the columns of the display (R6, R29). -/
@[simp] abbrev dispW : Nat := 64

/-- `DISP_H`: the rows of the display (R6, R29). -/
@[simp] abbrev dispH : Nat := 32

/-- `NKEYS`: the flags of the input latch (R6, R30). -/
@[simp] abbrev nKeys : Nat := 16

/-- `TIMER_DIV`: the cycles per timer tick (R6, R194). -/
@[simp] abbrev timerDiv : Nat := 10

/-- Bytes per glyph of the font (R62). -/
@[simp] abbrev glyphBytes : Nat := 5

/-- Glyphs 0 to 7 of `FONT`, address 0x000 to 0x027 (R63). -/
def fontLow : List Byte :=
  [0xF0, 0x90, 0x90, 0x90, 0xF0,
   0x20, 0x60, 0x20, 0x20, 0x70,
   0xF0, 0x10, 0xF0, 0x80, 0xF0,
   0xF0, 0x10, 0xF0, 0x10, 0xF0,
   0x90, 0x90, 0xF0, 0x10, 0x10,
   0xF0, 0x80, 0xF0, 0x10, 0xF0,
   0xF0, 0x80, 0xF0, 0x90, 0xF0,
   0xF0, 0x10, 0x20, 0x40, 0x40]

/-- Glyphs 8 to F of `FONT`, address 0x028 to 0x04F (R63). -/
def fontHigh : List Byte :=
  [0xF0, 0x90, 0xF0, 0x90, 0xF0,
   0xF0, 0x90, 0xF0, 0x10, 0xF0,
   0xF0, 0x90, 0xF0, 0x90, 0x90,
   0xE0, 0x90, 0xE0, 0x90, 0xE0,
   0xF0, 0x80, 0x80, 0x80, 0xF0,
   0xE0, 0x90, 0x90, 0x90, 0xE0,
   0xF0, 0x80, 0xF0, 0x80, 0xF0,
   0xF0, 0x80, 0xF0, 0x80, 0x80]

/-- The type of the parameter `FONT`: 80 bytes, 5 per glyph (R62, R63). -/
abbrev Font := Vector Byte 80

/-- The default of the parameter `FONT`, the table of R63. The parameter itself is the argument of
`Machine.State.resetWith`. PRESUMED (log 9): the spec takes the table from general knowledge (D3), a
proof that leans on a byte of it is about this font only. Unsafe. -/
def font : Font := { toArray := { toList := fontLow ++ fontHigh }, size_toArray := rfl }

/-- The default of the parameter `PIXEL_ON`, the byte `fb` shows for a lit cell (R6, R29); the parameter
itself is the argument of `Machine.Published.fbByteWith`. UNVERIFIED, the spec's own decision (D9,
log 10): a claim that needs the number is about the default only. Unsafe. -/
def pixelOn : Byte := 1

/-- `KEY_PICK` (R182, D13): which pressed key `LD Vx,K` reports, a function of the pressed set.
Free; `Machine.pickKey` keeps the bound that the answer is a member of the set (log 5). Safe. -/
opaque keyPick : BitVec 16 → Nibble

/-- The key events of a cycle for which `inputs` holds no entry, by the number of the cycle: a free
input of the step (R191, log 3). Safe. -/
opaque freeEvents : Nat → List KeyEvent

/-- The byte on the `rand` port in a cycle for which `inputs` holds no entry, by the number of the
cycle: a free input of the step (R152, D15, log 3). Safe. -/
opaque freeRand : Nat → Byte

/-- `INSTR_RATE`: cycles per second of wall-clock time, open; no rule depends on it (R250, D26), and
nothing in the model reads it (log 20). -/
opaque instrRate : Nat

end Config
end Sys2Proof
end

