-- ==== Sys2Proof/Syntax.lean ====
section
/-! DEFINITION. The instruction set: one constructor per row of R95 and of spec/opcode_table.json,
in the table's order, with the fields R91 gives it (R101). -/

namespace Sys2Proof

/-- The 34 instructions of R95. The set is closed: no hint, no no-op, no extension (R97). -/
inductive Instr where
  /-- `CLS`, 00E0 (R170). -/
  | cls
  /-- `RET`, 00EE (R123). -/
  | ret
  /-- `JP nnn`, 1nnn (R121). -/
  | jp (nnn : Addr12)
  /-- `CALL nnn`, 2nnn (R122). -/
  | call (nnn : Addr12)
  /-- `SE Vx,kk`, 3xkk (R124). -/
  | seImm (x : Nibble) (kk : Byte)
  /-- `SE Vx,Vy`, 5xy0 (R126). -/
  | seReg (x y : Nibble)
  /-- `SNE Vx,kk`, 4xkk (R125). -/
  | sneImm (x : Nibble) (kk : Byte)
  /-- `SNE Vx,Vy`, 9xy0 (R127). -/
  | sneReg (x y : Nibble)
  /-- `LD Vx,kk`, 6xkk (R141). -/
  | ldImm (x : Nibble) (kk : Byte)
  /-- `ADD Vx,kk`, 7xkk (R142). -/
  | addImm (x : Nibble) (kk : Byte)
  /-- `LD Vx,Vy`, 8xy0 (R143). -/
  | ldReg (x y : Nibble)
  /-- `OR Vx,Vy`, 8xy1 (R144). -/
  | orReg (x y : Nibble)
  /-- `AND Vx,Vy`, 8xy2 (R145). -/
  | andReg (x y : Nibble)
  /-- `XOR Vx,Vy`, 8xy3 (R146). -/
  | xorReg (x y : Nibble)
  /-- `ADD Vx,Vy`, 8xy4 (R147). -/
  | addReg (x y : Nibble)
  /-- `SUB Vx,Vy`, 8xy5 (R148). -/
  | sub (x y : Nibble)
  /-- `SHR Vx`, 8xy6; `y` is decoded and has no effect (R149, U12). -/
  | shr (x y : Nibble)
  /-- `SUBN Vx,Vy`, 8xy7 (R150). -/
  | subn (x y : Nibble)
  /-- `SHL Vx`, 8xyE; `y` is decoded and has no effect (R151, U12). -/
  | shl (x y : Nibble)
  /-- `LD I,nnn`, Annn (R160). -/
  | ldI (nnn : Addr12)
  /-- `JP V0,nnn`, Bnnn (R128). -/
  | jpV0 (nnn : Addr12)
  /-- `RND Vx,kk`, Cxkk (R152). -/
  | rnd (x : Nibble) (kk : Byte)
  /-- `DRW Vx,Vy,n`, Dxyn (R171). -/
  | drw (x y n : Nibble)
  /-- `SKP Vx`, Ex9E (R180). -/
  | skp (x : Nibble)
  /-- `SKNP Vx`, ExA1 (R181). -/
  | sknp (x : Nibble)
  /-- `LD Vx,DT`, Fx07 (R183). -/
  | ldVxDT (x : Nibble)
  /-- `LD DT,Vx`, Fx15 (R184). -/
  | ldDTVx (x : Nibble)
  /-- `LD ST,Vx`, Fx18 (R185). -/
  | ldSTVx (x : Nibble)
  /-- `LD Vx,K`, Fx0A (R182). -/
  | ldVxK (x : Nibble)
  /-- `ADD I,Vx`, Fx1E (R161). -/
  | addI (x : Nibble)
  /-- `LD F,Vx`, Fx29 (R162). -/
  | ldF (x : Nibble)
  /-- `LD B,Vx`, Fx33 (R163). -/
  | ldB (x : Nibble)
  /-- `LD [I],Vx`, Fx55 (R164). -/
  | ldMemVx (x : Nibble)
  /-- `LD Vx,[I]`, Fx65 (R165). -/
  | ldVxMem (x : Nibble)
deriving DecidableEq, Repr

end Sys2Proof
end

