-- ==== Sys2Proof/WellFormed.lean ====
section
/-! DEFINITION. What a term must satisfy beyond its type.

The fields of `Instr` have exactly the widths of R91, and every value of every field is legal (R35,
R93, U2: an index outside 0 to 15 cannot be represented), so an ill-formed instruction cannot be
written down and `Instr.wellFormed` refuses nothing. The one term of the spec that can be ill-formed
is a program image: it may be too long to load (R74). -/

namespace Sys2Proof

/-- Every instruction is well-formed by its type (R35, R91). One arm per constructor, so that a new
one cannot slip past. -/
def Instr.wellFormed (i : Instr) : Bool :=
  match i with
  | .cls => true
  | .ret => true
  | .jp _ => true
  | .call _ => true
  | .seImm _ _ => true
  | .seReg _ _ => true
  | .sneImm _ _ => true
  | .sneReg _ _ => true
  | .ldImm _ _ => true
  | .addImm _ _ => true
  | .ldReg _ _ => true
  | .orReg _ _ => true
  | .andReg _ _ => true
  | .xorReg _ _ => true
  | .addReg _ _ => true
  | .sub _ _ => true
  | .shr _ _ => true
  | .subn _ _ => true
  | .shl _ _ => true
  | .ldI _ => true
  | .jpV0 _ => true
  | .rnd _ _ => true
  | .drw _ _ _ => true
  | .skp _ => true
  | .sknp _ => true
  | .ldVxDT _ => true
  | .ldDTVx _ => true
  | .ldSTVx _ => true
  | .ldVxK _ => true
  | .addI _ => true
  | .ldF _ => true
  | .ldB _ => true
  | .ldMemVx _ => true
  | .ldVxMem _ => true

/-- A program image fits the range 0x200 to 0xFFF: at most `ROM_MAX` bytes, the empty image
included (R74). -/
def programFits (image : List Byte) : Bool := image.length ≤ Config.romMax

end Sys2Proof
end

