-- ==== Sys2Proof/Decode.lean ====
section
/-! DEFINITION. The encoding: fields (R91), the opcode map (R95), decoding (R94), and the encoder
written from the same map. The bit patterns are the spec's from general knowledge (D1). PRESUMED
(log 8), unsafe: a proof about an encoded program is about this assignment. -/

namespace Sys2Proof

/-! ### Fields of an opcode (R91) -/

/-- `op[11:8]`. -/
def fieldX (op : Word) : Nibble := op.extractLsb' 8 4

/-- `op[7:4]`. -/
def fieldY (op : Word) : Nibble := op.extractLsb' 4 4

/-- `op[3:0]`. -/
def fieldN (op : Word) : Nibble := op.extractLsb' 0 4

/-- `op[7:0]`. -/
def fieldKK (op : Word) : Byte := op.extractLsb' 0 8

/-- `op[11:0]`. -/
def fieldNNN (op : Word) : Addr12 := op.extractLsb' 0 12

/-! ### The opcode map (R95) -/

/-- One row of R95: the mnemonic as spec/opcode_table.json spells it, the bits compared, the value
they must have, and the instruction with its operands. -/
structure OpcodeRow where
  mnemonic : String
  mask : Word
  pattern : Word
  build : Word → Instr

/-- Rows 1 to 10 of R95. -/
def rowsFlow : List OpcodeRow :=
  [ { mnemonic := "CLS", mask := 0xFFFF, pattern := 0x00E0, build := fun _ => .cls },
    { mnemonic := "RET", mask := 0xFFFF, pattern := 0x00EE, build := fun _ => .ret },
    { mnemonic := "JP_nnn", mask := 0xF000, pattern := 0x1000, build := fun op => .jp (fieldNNN op) },
    { mnemonic := "CALL_nnn", mask := 0xF000, pattern := 0x2000, build := fun op => .call (fieldNNN op) },
    { mnemonic := "SE_Vx_kk", mask := 0xF000, pattern := 0x3000,
      build := fun op => .seImm (fieldX op) (fieldKK op) },
    { mnemonic := "SE_Vx_Vy", mask := 0xF00F, pattern := 0x5000,
      build := fun op => .seReg (fieldX op) (fieldY op) },
    { mnemonic := "SNE_Vx_kk", mask := 0xF000, pattern := 0x4000,
      build := fun op => .sneImm (fieldX op) (fieldKK op) },
    { mnemonic := "SNE_Vx_Vy", mask := 0xF00F, pattern := 0x9000,
      build := fun op => .sneReg (fieldX op) (fieldY op) },
    { mnemonic := "LD_Vx_kk", mask := 0xF000, pattern := 0x6000,
      build := fun op => .ldImm (fieldX op) (fieldKK op) },
    { mnemonic := "ADD_Vx_kk", mask := 0xF000, pattern := 0x7000,
      build := fun op => .addImm (fieldX op) (fieldKK op) } ]

/-- Rows 11 to 19 of R95, group 8. -/
def rowsAlu : List OpcodeRow :=
  [ { mnemonic := "LD_Vx_Vy", mask := 0xF00F, pattern := 0x8000,
      build := fun op => .ldReg (fieldX op) (fieldY op) },
    { mnemonic := "OR_Vx_Vy", mask := 0xF00F, pattern := 0x8001,
      build := fun op => .orReg (fieldX op) (fieldY op) },
    { mnemonic := "AND_Vx_Vy", mask := 0xF00F, pattern := 0x8002,
      build := fun op => .andReg (fieldX op) (fieldY op) },
    { mnemonic := "XOR_Vx_Vy", mask := 0xF00F, pattern := 0x8003,
      build := fun op => .xorReg (fieldX op) (fieldY op) },
    { mnemonic := "ADD_Vx_Vy", mask := 0xF00F, pattern := 0x8004,
      build := fun op => .addReg (fieldX op) (fieldY op) },
    { mnemonic := "SUB_Vx_Vy", mask := 0xF00F, pattern := 0x8005,
      build := fun op => .sub (fieldX op) (fieldY op) },
    { mnemonic := "SHR_Vx", mask := 0xF00F, pattern := 0x8006,
      build := fun op => .shr (fieldX op) (fieldY op) },
    { mnemonic := "SUBN_Vx_Vy", mask := 0xF00F, pattern := 0x8007,
      build := fun op => .subn (fieldX op) (fieldY op) },
    { mnemonic := "SHL_Vx", mask := 0xF00F, pattern := 0x800E,
      build := fun op => .shl (fieldX op) (fieldY op) } ]

/-- Rows 20 to 25 of R95. -/
def rowsIndex : List OpcodeRow :=
  [ { mnemonic := "LD_I_nnn", mask := 0xF000, pattern := 0xA000, build := fun op => .ldI (fieldNNN op) },
    { mnemonic := "JP_V0_nnn", mask := 0xF000, pattern := 0xB000, build := fun op => .jpV0 (fieldNNN op) },
    { mnemonic := "RND_Vx_kk", mask := 0xF000, pattern := 0xC000,
      build := fun op => .rnd (fieldX op) (fieldKK op) },
    { mnemonic := "DRW_Vx_Vy_n", mask := 0xF000, pattern := 0xD000,
      build := fun op => .drw (fieldX op) (fieldY op) (fieldN op) },
    { mnemonic := "SKP_Vx", mask := 0xF0FF, pattern := 0xE09E, build := fun op => .skp (fieldX op) },
    { mnemonic := "SKNP_Vx", mask := 0xF0FF, pattern := 0xE0A1, build := fun op => .sknp (fieldX op) } ]

/-- Rows 26 to 34 of R95, group F. -/
def rowsMisc : List OpcodeRow :=
  [ { mnemonic := "LD_Vx_DT", mask := 0xF0FF, pattern := 0xF007, build := fun op => .ldVxDT (fieldX op) },
    { mnemonic := "LD_DT_Vx", mask := 0xF0FF, pattern := 0xF015, build := fun op => .ldDTVx (fieldX op) },
    { mnemonic := "LD_ST_Vx", mask := 0xF0FF, pattern := 0xF018, build := fun op => .ldSTVx (fieldX op) },
    { mnemonic := "LD_Vx_K", mask := 0xF0FF, pattern := 0xF00A, build := fun op => .ldVxK (fieldX op) },
    { mnemonic := "ADD_I_Vx", mask := 0xF0FF, pattern := 0xF01E, build := fun op => .addI (fieldX op) },
    { mnemonic := "LD_F_Vx", mask := 0xF0FF, pattern := 0xF029, build := fun op => .ldF (fieldX op) },
    { mnemonic := "LD_B_Vx", mask := 0xF0FF, pattern := 0xF033, build := fun op => .ldB (fieldX op) },
    { mnemonic := "LD__I__Vx", mask := 0xF0FF, pattern := 0xF055, build := fun op => .ldMemVx (fieldX op) },
    { mnemonic := "LD_Vx__I", mask := 0xF0FF, pattern := 0xF065, build := fun op => .ldVxMem (fieldX op) } ]

/-- The opcode map, the 34 rows of R95. -/
def opcodeTable : List OpcodeRow := rowsFlow ++ rowsAlu ++ rowsIndex ++ rowsMisc

/-! ### Decoding (R94, R96) -/

/-- A word selects a row when every bit that is no operand has the row's value (R94, D2). -/
def OpcodeRow.selects (row : OpcodeRow) (op : Word) : Bool := op &&& row.mask == row.pattern

/-- Why bytes are no instruction. There is no reserved, hint or no-op space (R97). -/
inductive Reject where
  /-- The word matches no row of R95: the machine raises `DecodeError(op)` when it executes (R96). -/
  | unmapped (op : Word)
  /-- Fewer than the two bytes every instruction has (R90). The machine never meets it: its fetch
  answers two bytes or raises (R66). -/
  | truncated
deriving DecidableEq, Repr

/-- Decode a word: a pure function of the word, total on all 65536 of them (R94, R101). -/
def decode (op : Word) : Except Reject Instr :=
  match opcodeTable.find? (·.selects op) with
  | some row => .ok (row.build op)
  | none => .error (.unmapped op)

/-- Two bytes as the machine fetches them: the byte at the lower address is the high one (R66). -/
def wordOfBytes (hi lo : Byte) : Word := hi ++ lo

/-- The high byte of a word, stored at the lower address (R66). -/
def highByte (op : Word) : Byte := op.extractLsb' 8 8

/-- The low byte of a word, stored at the higher address (R66). -/
def lowByte (op : Word) : Byte := op.extractLsb' 0 8

/-- Decode the instruction at the head of a list of bytes and answer the bytes after it; every
instruction is two bytes, high byte first (R90). -/
def decodeBytes : List Byte → Except Reject (Instr × List Byte)
  | hi :: lo :: rest =>
    match decode (wordOfBytes hi lo) with
    | .ok i => .ok (i, rest)
    | .error r => .error r
  | _ => .error .truncated

/-! ### Encoding (R92, R95) -/

/-- The word of an instruction: group, then operands and selector, most significant first (R92). -/
def encode (i : Instr) : Word :=
  match i with
  | .cls => 0x00E0
  | .ret => 0x00EE
  | .jp nnn => 0x1#4 ++ nnn
  | .call nnn => 0x2#4 ++ nnn
  | .seImm x kk => 0x3#4 ++ x ++ kk
  | .seReg x y => 0x5#4 ++ x ++ y ++ 0x0#4
  | .sneImm x kk => 0x4#4 ++ x ++ kk
  | .sneReg x y => 0x9#4 ++ x ++ y ++ 0x0#4
  | .ldImm x kk => 0x6#4 ++ x ++ kk
  | .addImm x kk => 0x7#4 ++ x ++ kk
  | .ldReg x y => 0x8#4 ++ x ++ y ++ 0x0#4
  | .orReg x y => 0x8#4 ++ x ++ y ++ 0x1#4
  | .andReg x y => 0x8#4 ++ x ++ y ++ 0x2#4
  | .xorReg x y => 0x8#4 ++ x ++ y ++ 0x3#4
  | .addReg x y => 0x8#4 ++ x ++ y ++ 0x4#4
  | .sub x y => 0x8#4 ++ x ++ y ++ 0x5#4
  | .shr x y => 0x8#4 ++ x ++ y ++ 0x6#4
  | .subn x y => 0x8#4 ++ x ++ y ++ 0x7#4
  | .shl x y => 0x8#4 ++ x ++ y ++ 0xE#4
  | .ldI nnn => 0xA#4 ++ nnn
  | .jpV0 nnn => 0xB#4 ++ nnn
  | .rnd x kk => 0xC#4 ++ x ++ kk
  | .drw x y n => 0xD#4 ++ x ++ y ++ n
  | .skp x => 0xE#4 ++ x ++ 0x9E#8
  | .sknp x => 0xE#4 ++ x ++ 0xA1#8
  | .ldVxDT x => 0xF#4 ++ x ++ 0x07#8
  | .ldDTVx x => 0xF#4 ++ x ++ 0x15#8
  | .ldSTVx x => 0xF#4 ++ x ++ 0x18#8
  | .ldVxK x => 0xF#4 ++ x ++ 0x0A#8
  | .addI x => 0xF#4 ++ x ++ 0x1E#8
  | .ldF x => 0xF#4 ++ x ++ 0x29#8
  | .ldB x => 0xF#4 ++ x ++ 0x33#8
  | .ldMemVx x => 0xF#4 ++ x ++ 0x55#8
  | .ldVxMem x => 0xF#4 ++ x ++ 0x65#8

/-- The two bytes of an instruction in memory order (R66, R90). -/
def encodeBytes (i : Instr) : List Byte := [highByte (encode i), lowByte (encode i)]

/-! ### The host's opcode-table words -/

/-- The word the host's numbering gives: bit 0 is the least significant bit, every bit at or above
`nbits` is 0. -/
def tableWord (nbits w : Nat) : Word := BitVec.ofNat 16 (w % 2 ^ nbits)

/-- The instruction the decoder reads from the table word `w` of `nbits` bits, laid out in memory
order. -/
def decodeTableWord (nbits w : Nat) : Option Instr :=
  match decodeBytes [highByte (tableWord nbits w), lowByte (tableWord nbits w)] with
  | .ok (i, _) => some i
  | .error _ => none

end Sys2Proof
end

