-- ==== Sys2Proof/Machine/State.lean ====
section
/-! DEFINITION. The state of the machine: the tuple of R32, the two output ports of R34 as a latch,
and the environment's side of the ports. Plain data throughout. -/

namespace Sys2Proof.Machine

/-- The kind of an access that is out of range (R210, R212). -/
inductive AccessKind where
  | fetch
  | read
  | write
deriving DecidableEq, Repr

/-- The cause of a fatal condition with the information recorded (R210). -/
inductive Cause where
  /-- The fetched word matches no row of R95 (R211). -/
  | decodeError (op : Word)
  /-- The first address out of range, and what was attempted there (R212). -/
  | memOutOfBounds (addr : Nat) (kind : AccessKind)
  /-- `CALL` with 16 occupied slots (R213). -/
  | stackOverflow
  /-- `RET` with none (R214). -/
  | stackUnderflow
  /-- A program image longer than `ROM_MAX` (R215). -/
  | loadTooLarge (len : Nat)
  /-- `SKP` or `SKNP` with a key index of 16 or more (R216). -/
  | keyIndexRange (index : Byte)
deriving DecidableEq, Repr

/-- The environment's input of one cycle, the `E = (events, rand)` of R190 and R200. -/
structure CycleInput where
  /-- The key events of the poll phase, in the order made (R191). -/
  events : List KeyEvent
  /-- The byte on the `rand` port in this cycle; only an `RND` consumes it (R152, R200). -/
  rand : Byte
deriving DecidableEq, Repr

/-- The cells of the display: row `cy` is entry `cy`, column `cx` is bit `cx` of it, so that cell
`(cx, cy)` is `disp[cx + 64*cy]` of R29 (log 24). -/
abbrev Display := Vector (BitVec 64) 32

/-- What a completed cycle shows the collaborators (R195): the cells behind `fb`, and `st_out`. -/
structure Published where
  fb : Display
  stOut : Byte
deriving DecidableEq, Repr

/-- The bytes of `M` that differ from their reset content, addresses strictly rising (log 21). -/
abbrev Memory := List Host.Cell

/-- The whole state (R32), with the model's own fields last. -/
structure State where
  /-- `V[0]` to `V[15]` (R20); `V[15]` is the flag register (R21). -/
  v : Vector Byte 16
  /-- The index register `I` (R22). -/
  i : Word
  /-- The program counter (R23): the address of the executing instruction, and at the end of a cycle
  of the next one. -/
  pc : Word
  /-- The stack pointer, kept as the depth 0 to 16 (R24, log 12). -/
  sp : Nat
  /-- The 16 slots of the return stack (R24). -/
  stack : Vector Word 16
  /-- The delay timer (R25). -/
  dt : Byte
  /-- The sound timer (R26). -/
  st : Byte
  /-- The hidden cycle counter, 0 to 9 (R27, log 13). -/
  tick : Nat
  /-- The main memory `M` (R28, log 21). -/
  mem : Memory
  /-- The display buffer (R29, log 24). -/
  disp : Display
  /-- The input latch: flag `k` is bit `k` (R30, log 24). -/
  key : BitVec 16
  /-- The latch a fatal condition sets and only reset clears (R31, R218). -/
  halted : Bool
  /-- The recorded cause (R31, R210). -/
  fault : Option Cause
  /-- The output ports `fb` and `st_out`: what the last completed cycle published (R34, R195). None
  before the first completed cycle (log 14). -/
  out : Option Published
  /-- The input port `rand`: the byte offered in this cycle (R34, R200, log 4). -/
  rand : Byte
  /-- MODEL'S OWN: the environment's inputs of the coming cycles; free where the list has ended
  (log 3). -/
  inputs : List CycleInput
  /-- MODEL'S OWN: the number of cycles begun since reset, the index of the free inputs (log 3). -/
  cycle : Nat
  /-- MODEL'S OWN: `load` has happened, so a second one is no operation of the machine (R74, U8,
  log 15). -/
  loaded : Bool
deriving DecidableEq, Repr

/-- The state right after reset (R33, R240) with the default of the parameter `FONT`, which is the
argument of `State.resetWith`. Memory lists nothing, so it reads as its reset content: that font and
zeros (R61, R63). `rand`, `inputs`, `cycle`, `loaded` are the model's own (logs 3, 4, 15). -/
def State.reset : State :=
  { v := Vector.replicate 16 0
    i := 0
    pc := BitVec.ofNat 16 Config.progBase
    sp := 0
    stack := Vector.replicate 16 0
    dt := 0
    st := 0
    tick := 0
    mem := []
    disp := Vector.replicate 32 0
    key := 0
    halted := false
    fault := none
    out := none
    rand := 0
    inputs := []
    cycle := 0
    loaded := false }

/-- Why `step` has no next state. -/
inductive Fault where
  /-- Raised by `step` alone, on a machine that is already halted: a halted machine has no step
  (R197). Carries the recorded cause. Safe: the machine takes no step there either. The fatal
  condition itself is a next state, the halted one (R218, log 1). -/
  | halted (cause : Option Cause)
deriving DecidableEq, Repr

/-- Why the model gives no meaning. -/
inductive Refusal where
  /-- Raised by an arm of `exec` for an instruction without a meaning yet; no arm uses it. Safe. -/
  | notModelled (mnemonic : String)
  /-- Raised by `State.load` for a second load or a load after the first cycle, which are no
  operations of the machine (R74, U8, D25, log 15). Safe. -/
  | loadOutOfTurn
deriving DecidableEq, Repr

end Sys2Proof.Machine
end

