-- ==== Sys2Proof/Machine/Ops.lean ====
section
/-! DEFINITION. The operations every meaning is made of: registers, memory (R64 to R66), the return
stack (R71, R72), the program load (R74), and taking a fatal condition (R218), of which there is no
return (R221: only reset leaves the halted state). -/

namespace Sys2Proof.Machine

/-- The outcome type of this machine. -/
abbrev Outcome := Host.Outcome State Fault Refusal

/-! ### Registers -/

/-- `V[x]` (R20). No register is hard-wired, and every index is legal (R35). -/
def State.reg (s : State) (x : Nibble) : Byte := s.v[x.toNat]'x.isLt

/-- `V[x] <- b`. -/
def State.setReg (s : State) (x : Nibble) (b : Byte) : State :=
  { s with v := s.v.set x.toNat b x.isLt }

/-- `I <- w` (R22). -/
def State.setI (s : State) (w : Word) : State := { s with i := w }

/-- The ordinary advance: `pc <- pc + 2`, modulo 65536 (R120, D6). -/
def State.advance (s : State) : State := { s with pc := s.pc + 2 }

/-- `pc <- target`, the net effect at the end of the cycle (R10, R120). -/
def State.jumpTo (s : State) (target : Word) : State := { s with pc := target }

/-- A skip adds 4 instead of 2 and never looks at the instruction it skips (R120, R129). -/
def State.skipIf (s : State) (c : Bool) : State := { s with pc := s.pc + (if c then 4 else 2) }

/-! ### Fatal conditions -/

/-- The spec's number of a cause (R210). The numbers carry no behaviour (D17, log 26). -/
def Cause.code : Cause → Nat
  | .decodeError _ => 1
  | .memOutOfBounds _ _ => 2
  | .stackOverflow => 3
  | .stackUnderflow => 4
  | .loadTooLarge _ => 5
  | .keyIndexRange _ => 6

/-- Taking a fatal condition (R218): `halted <- 1`, `fault <- cause`. No vector, no saved `pc`, no
mode; the other fields stay as the pseudocode left them (D24, log 2). -/
def State.takeFatal (s : State) (c : Cause) : State := { s with halted := true, fault := some c }

/-- An instruction that raises: the halted state is its next state (log 1). -/
def raise (c : Cause) (s : State) : Outcome := .next (s.takeFatal c)

/-- A piece of an instruction either goes on in a state or has raised a cause, with the state as the
statements before the `raise` left it (R10). -/
inductive Flow where
  | go (s : State)
  | raised (c : Cause) (s : State)
deriving DecidableEq, Repr

/-- The statements after a `raise` are not performed (R10). -/
def Flow.andThen (f : Flow) (next : State → Flow) : Flow :=
  match f with
  | .go s => next s
  | .raised c s => .raised c s

/-- The end of an instruction with the ordinary advance (R120), or its fatal condition. -/
def Flow.finish (f : Flow) : Outcome :=
  match f with
  | .go s => .next s.advance
  | .raised c s => raise c s

/-! ### Memory -/

/-- What a byte holds after reset with the default font, and so what an unlisted address reads as: the
font at 0x000 to 0x04F, 0 elsewhere (R61, R63). It is the zero of the list's code and binds no claim to
the default: a memory with any other content lists the bytes that differ (log 21), and
`State.resetWith` gives the machine with any other font. -/
def Memory.resetByte (a : Nat) : Byte := Config.font.toList.getD a 0

/-- The byte at `a`: the listed one, else the reset content. -/
def Memory.byte (m : Memory) (a : Nat) : Byte :=
  match m with
  | [] => Memory.resetByte a
  | (c, b) :: rest => if c = a then b else Memory.byte rest a

/-- Take the entry of `a` out. -/
def Memory.erase (m : Memory) (a : Nat) : Memory :=
  match m with
  | [] => []
  | (c, b) :: rest => if c = a then Memory.erase rest a else (c, b) :: Memory.erase rest a

/-- Put an entry in before the first higher address. -/
def Memory.insert (m : Memory) (a : Nat) (b : Byte) : Memory :=
  match m with
  | [] => [(a, b)]
  | (c, d) :: rest => if a < c then (a, b) :: (c, d) :: rest else (c, d) :: Memory.insert rest a b

/-- `M[a] <- b`, keeping the canonical form: a byte equal to its reset content is not listed. -/
def Memory.set (m : Memory) (a : Nat) (b : Byte) : Memory :=
  if b = Memory.resetByte a then Memory.erase m a else Memory.insert (Memory.erase m a) a b

/-- The canonical form from address `lo` on: addresses strictly rising and below 4096, no entry
equal to the reset content. -/
def Memory.wfFrom (lo : Nat) (m : Memory) : Bool :=
  match m with
  | [] => true
  | (a, b) :: rest =>
    decide (lo ≤ a) && decide (a < Config.memSize) && (b != Memory.resetByte a)
      && Memory.wfFrom (a + 1) rest

/-- The canonical form of a memory. -/
def Memory.wf (m : Memory) : Bool := Memory.wfFrom 0 m

/-- `MemRead(a, 1)` (R64): the byte, or none where the read is out of bounds. The address is an
unbounded natural and is never reduced (R60). No side effect (R69). -/
def State.read (s : State) (a : Nat) : Option Byte :=
  if a < Config.memSize then some (s.mem.byte a) else none

/-- `MemWrite(a, 1, b)` (R65): every byte of the space is writable (R79). -/
def State.write (s : State) (a : Nat) (b : Byte) : Flow :=
  if a < Config.memSize then .go { s with mem := s.mem.set a b }
  else .raised (.memOutOfBounds a .write) s

/-- `MemRead(pc, 2)`, the instruction fetch (R66): the big-endian pair at `pc` and `pc + 1`, or none
where `pc ≥ 4095`. Any address, even or odd (R67). -/
def State.fetchWord (s : State) : Option Word :=
  if s.pc.toNat + 1 < Config.memSize then
    some (wordOfBytes (s.mem.byte s.pc.toNat) (s.mem.byte (s.pc.toNat + 1)))
  else none

/-- Place a word where the fetch reads it, high byte at `pc` (R66). -/
def State.placeWord (s : State) (op : Word) : State :=
  { s with mem := (s.mem.set s.pc.toNat (highByte op)).set (s.pc.toNat + 1) (lowByte op) }

/-! ### Return stack -/

/-- `Push(w)` (R71): raises before anything is written when 16 slots are occupied. A depth above 16
occurs in no run (log 12) and is taken as full. -/
def State.push (s : State) (w : Word) : Flow :=
  if h : s.sp < Config.stackDepth then
    .go { s with stack := s.stack.set s.sp w h, sp := s.sp + 1 }
  else .raised .stackOverflow s

/-- The slot `k`; 0 above the sixteen, which no depth of a run reaches (log 12). -/
def State.slot (s : State) (k : Nat) : Word := s.stack.getD k 0

/-- The state after `Pop()` (R72): the vacated slot keeps its value (D5). -/
def State.pop (s : State) : State := { s with sp := s.sp - 1 }

/-! ### Reset with a font, program load -/

/-- `M[a + k] <- bytes[k]`, in ascending order. -/
def Memory.place (m : Memory) (a : Nat) (bytes : List Byte) : Memory :=
  match bytes with
  | [] => m
  | b :: rest => Memory.place (m.set a b) (a + 1) rest

/-- The state right after reset of the machine whose parameter `FONT` is `font` (R63, D3, U14): the
reset state with these 80 bytes at 0x000 to 0x04F (R62). No instruction and no phase reads the
parameter, only memory (log 9). -/
def State.resetWith (font : Config.Font) : State :=
  { State.reset with mem := State.reset.mem.place 0 font.toList }

/-- `load(bytes)` (R74, R242): places the program verbatim at 0x200, or raises `LoadTooLarge` with
no byte copied (R215); either is the one load of the machine. A second load, or a load after a cycle,
is no operation of the machine and is refused (U8, D25, log 15). -/
def State.load (s : State) (bytes : List Byte) : Outcome :=
  if s.loaded || s.cycle != 0 then .refused .loadOutOfTurn
  else if programFits bytes then
    .next { s with mem := s.mem.place Config.progBase bytes, loaded := true }
  else raise (.loadTooLarge bytes.length) { s with loaded := true }

end Sys2Proof.Machine
end

