-- ==== Sys2Proof/Machine/Operands.lean ====
section
/-! DEFINITION. Operand forms: immediates (R93), the one addressing mode (R166), the glyph address
(R162), the decimal digits (R163), sprite coordinates (R171), key index (R186) and key choice
(R182). -/

namespace Sys2Proof.Machine

/-- `zext_16` of a byte (R8, R93). -/
def zextByte (b : Byte) : Word := b.setWidth 16

/-- `zext_16(nnn)` (R93): an address is neither scaled nor shifted. -/
def zextAddr (nnn : Addr12) : Word := nnn.setWidth 16

/-- The effective address `I + k`, an unbounded natural: no 12-bit or 16-bit wrap (R166). -/
def State.effAddr (s : State) (k : Nat) : Nat := s.i.toNat + k

/-- `5 * Vx`, the address of glyph `Vx`; the whole byte counts, and the product fits 16 bits (R162,
D28). -/
def glyphAddr (b : Byte) : Word := BitVec.ofNat 16 (Config.glyphBytes * b.toNat)

/-- The digits `LD B,Vx` stores, hundreds first (R80, R163). -/
def hundreds (b : Byte) : Byte := BitVec.ofNat 8 (b.toNat / 100)

/-- The tens digit (R163). -/
def tens (b : Byte) : Byte := BitVec.ofNat 8 (b.toNat / 10 % 10)

/-- The ones digit (R163). -/
def ones (b : Byte) : Byte := BitVec.ofNat 8 (b.toNat % 10)

/-- The starting column of a sprite: the modulo, then the clamp that never binds (R171). -/
def startCol (b : Byte) : Nat := min (b.toNat % Config.dispW) (Config.dispW - 1)

/-- The starting row of a sprite (R171). -/
def startRow (b : Byte) : Nat := min (b.toNat % Config.dispH) (Config.dispH - 1)

/-- The index of a flag the latch has: the whole byte counts, it is not reduced to its low nibble
(R186, log 17). -/
def keyIndexOk (b : Byte) : Bool := b.toNat < Config.nKeys

/-- `key[k]` (R30). -/
def State.keyDown (s : State) (k : Nat) : Bool := s.key.getLsbD k

/-- The lowest pressed key; 0 when none is. -/
def lowestKey (pressed : BitVec 16) : Nibble :=
  BitVec.ofNat 4 (((List.range Config.nKeys).find? (fun k => pressed.getLsbD k)).getD 0)

/-- `KEY_PICK(P)` for a non-empty set (R182, D13): a member of it. With one key down there is no
choice; with several it is the free `Config.keyPick`, which counts only where it is a member
(log 5). -/
def pickKey (pressed : BitVec 16) : Nibble :=
  let low := lowestKey pressed
  if pressed = 1#16 <<< low.toNat then low
  else if pressed.getLsbD (Config.keyPick pressed).toNat then Config.keyPick pressed
  else low

end Sys2Proof.Machine
end

