-- ==== Sys2Proof/Machine/Flags.lean ====
section
/-! DEFINITION. The flag register `VF`, which is `V[15]` (R21): what each of its six writers puts
there, and the order of the two writes (R140). -/

namespace Sys2Proof.Machine

/-- The index of the flag register (R21). -/
abbrev vf : Nibble := 15

/-- A flag is written as the whole byte, 0 or 1 (R21, D27). -/
def flagByte (c : Bool) : Byte := if c then 1 else 0

/-- `ADD Vx,Vy`: 1 if the sum exceeds 255 (R147). -/
def carryFlag (a b : Byte) : Byte := flagByte (decide (a.toNat + b.toNat > 255))

/-- `SUB` with `a = Vx`, `b = Vy`, and `SUBN` with the operands exchanged: 1 if strictly greater,
unsigned; equal operands give 0 (R148, R150). -/
def greaterFlag (a b : Byte) : Byte := flagByte (decide (a.toNat > b.toNat))

/-- `SHR`: the bit shifted out (R149). -/
def shrFlag (a : Byte) : Byte := flagByte (a.getLsbD 0)

/-- `SHL`: 1 exactly when the low three bits are 001, and not the bit shifted out (R151). UNVERIFIED:
the grouping `(Vx & 0x7) == 1` is the spec's own reading (D8, U11, log 7). Unsafe. -/
def shlFlag (a : Byte) : Byte := flagByte (a &&& 7 == 1)

/-- `DRW`: 1 if a toggled cell had been on (R171). -/
def collisionFlag (hit : Bool) : Byte := flagByte hit

/-- `V[15] <- flag; V[x] <- result`, in this order, both computed from the state before (R140): with
`x = 15` the result byte is what remains. UNVERIFIED, the spec's own decision
(D7, U3, log 6). Unsafe. -/
def State.setFlagThenReg (s : State) (x : Nibble) (flag result : Byte) : State :=
  (s.setReg vf flag).setReg x result

end Sys2Proof.Machine
end

