-- ==== Sys2Proof/Machine/Display.lean ====
section
/-! DEFINITION. The display buffer and its two instructions: spec/43_display.md. -/

namespace Sys2Proof.Machine

/-- Cell `(cx, cy)`, which is `disp[cx + 64*cy]` (R172). Off outside the grid. -/
def Display.cell (d : Display) (cx cy : Nat) : Bool := (d.getD cy 0).getLsbD cx

/-- Cell `disp[j]` by its buffer index (R29, R172). -/
def Display.cellAt (d : Display) (j : Nat) : Bool :=
  Display.cell d (j % Config.dispW) (j / Config.dispW)

/-- The all-zero buffer (R170). -/
def Display.clear : Display := Vector.replicate 32 0

/-- `disp[j] <- disp[j] XOR 1` (R171). -/
def Display.flip (d : Display) (cx cy : Nat) : Display :=
  d.setIfInBounds cy (d.getD cy 0 ^^^ (1#64 <<< cx))

/-- The byte `fb` shows for cell `j`: 0 for off, the parameter `PIXEL_ON` for on (R29, R195, U15). -/
def Published.fbByteWith (pixelOn : Byte) (p : Published) (j : Nat) : Byte :=
  if Display.cellAt p.fb j then pixelOn else 0

/-- `fb` with the default of `PIXEL_ON` (R6, D9, log 10). -/
def Published.fbByte (p : Published) (j : Nat) : Byte := p.fbByteWith Config.pixelOn j

/-- The tone is on while `st_out > 0` (R26, R226). -/
def Published.toneOn (p : Published) : Bool := p.stOut != 0

/-- The buffer under a `DRW`, and whether a toggled cell had been on. -/
structure Canvas where
  disp : Display
  hit : Bool
deriving DecidableEq, Repr

/-- Toggle one cell and judge the collision against the buffer as it stands (R171, R174). -/
def Canvas.toggle (c : Canvas) (cx cy : Nat) : Canvas :=
  { disp := Display.flip c.disp cx cy, hit := c.hit || Display.cell c.disp cx cy }

/-- One sprite byte in row `cy` from column `x0`: column `c` is bit `7 - c` (R173, log 11); columns
past the right edge and rows below the bottom edge are dropped, never wrapped (R171). -/
def Canvas.drawByte (c : Canvas) (x0 cy : Nat) (b : Byte) : Canvas :=
  if cy < Config.dispH then
    (List.range 8).foldl
      (fun c k => if x0 + k < Config.dispW && b.getLsbD (7 - k) then c.toggle (x0 + k) cy else c) c
  else c

/-- Rows `r`, `r+1`, … of a sprite, `n` of them: each byte is read whether or not its row is visible
(R171, D11, log 23), and when all are drawn `VF` is written. -/
def drawRows (x0 y0 n r : Nat) (hit : Bool) (s : State) : Flow :=
  match n with
  | 0 => .go (s.setReg vf (collisionFlag hit))
  | n + 1 =>
    match s.read (s.effAddr r) with
    | some b =>
      let c := Canvas.drawByte { disp := s.disp, hit := hit } x0 (y0 + r) b
      drawRows x0 y0 n (r + 1) c.hit { s with disp := c.disp }
    | none => .raised (.memOutOfBounds (s.effAddr r) .read) s

/-- `CLS` (R170). -/
def execCls (s : State) : Outcome := .next { s with disp := Display.clear }.advance

/-- `DRW Vx,Vy,n` (R171): the coordinates are read before `VF` is written. -/
def execDrw (x y n : Nibble) (s : State) : Outcome :=
  (drawRows (startCol (s.reg x)) (startRow (s.reg y)) n.toNat 0 false s).finish

end Sys2Proof.Machine
end

