-- ==== Sys2Proof/Machine/Input.lean ====
section
/-! DEFINITION. Keypad and timer instructions: spec/44_input_timers.md. The latch is the one this
cycle's poll left (R191); the timers are those the last cycle's gate left (R203). -/

namespace Sys2Proof.Machine

/-- `SKP Vx` (R180). -/
def execSkp (x : Nibble) (s : State) : Outcome :=
  if keyIndexOk (s.reg x) then .next (s.skipIf (s.keyDown (s.reg x).toNat))
  else raise (.keyIndexRange (s.reg x)) s

/-- `SKNP Vx` (R181). -/
def execSknp (x : Nibble) (s : State) : Outcome :=
  if keyIndexOk (s.reg x) then .next (s.skipIf (!s.keyDown (s.reg x).toNat))
  else raise (.keyIndexRange (s.reg x)) s

/-- `LD Vx,K` (R182): with no key down `pc` stays and the instruction repeats in the next cycle; else
the picked index is stored. Written field by field, so that only `V` and `pc` depend on the latch. -/
def execLdVxK (x : Nibble) (s : State) : Outcome :=
  .next { s with
    v := if s.key = 0 then s.v else (s.setReg x ((pickKey s.key).setWidth 8)).v
    pc := if s.key = 0 then s.pc else s.pc + 2 }

/-- `LD Vx,DT` (R183): the value before this cycle's gate. -/
def execLdVxDT (x : Nibble) (s : State) : Outcome := .next (s.setReg x s.dt).advance

/-- `LD DT,Vx` (R184). -/
def execLdDTVx (x : Nibble) (s : State) : Outcome := .next { s with dt := s.reg x }.advance

/-- `LD ST,Vx` (R185). -/
def execLdSTVx (x : Nibble) (s : State) : Outcome := .next { s with st := s.reg x }.advance

end Sys2Proof.Machine
end

