-- ==== Sys2Proof/Machine/Cycle.lean ====
section
/-! DEFINITION. The phases of a cycle around the execute phase (R190): poll, fetch, decode, timer
gate, publish, pace. -/

namespace Sys2Proof.Machine

/-- The environment's input of the coming cycle: the head of `inputs`, or a free value where the list
has ended (R191, R200, log 3). -/
def State.cycleInput (s : State) : CycleInput :=
  match s.inputs with
  | e :: _ => e
  | [] => { events := Config.freeEvents s.cycle, rand := Config.freeRand s.cycle }

/-- `key[k] <- p` (R191). -/
def applyKeyEvent (key : BitVec 16) (e : KeyEvent) : BitVec 16 :=
  if e.pressed then key ||| (1#16 <<< e.key.toNat) else key &&& ~~~(1#16 <<< e.key.toNat)

/-- Phase 1, the poll (R191): the events take effect in the order made, flags not named keep their
value; the `rand` port holds this cycle's byte. -/
def State.pollInput (s : State) : State :=
  { s with
    key := s.cycleInput.events.foldl applyKeyEvent s.key
    rand := s.cycleInput.rand
    inputs := s.inputs.tail
    cycle := s.cycle + 1 }

/-- Phases 2 and 3, fetch and decode (R192, R193): an address out of bounds pre-empts everything,
then an unmapped word (R217). `truncated` cannot come from a word. -/
def State.fetchDecode (s : State) : Except Cause Instr :=
  match s.fetchWord with
  | none => .error (.memOutOfBounds s.pc.toNat .fetch)
  | some op =>
    match decode op with
    | .ok i => .ok i
    | .error _ => .error (.decodeError op)

/-- A timer that is non-zero loses 1, a timer at 0 stays at 0 (R25, R194). -/
def countDown (t : Byte) : Byte := if t = 0 then 0 else t - 1

/-- Phase 5, the timer gate (R194): every completed execute phase counts, and at `TIMER_DIV` the
count returns to 0 and both timers count down. -/
def State.timerGate (s : State) : State :=
  if s.tick + 1 = Config.timerDiv then
    { s with tick := 0, dt := countDown s.dt, st := countDown s.st }
  else { s with tick := s.tick + 1 }

/-- Phase 6, publish (R195): the buffer as the instruction left it, `st` as the gate left it. -/
def State.publish (s : State) : State := { s with out := some { fb := s.disp, stOut := s.st } }

/-- Phase 7, pace (R196): reads and writes no state (log 20). -/
def State.pace (s : State) : State := s

/-- Phases 5 to 7 after the execute phase; a cycle that raised ends at once (R190, R218). -/
def endCycle (o : Outcome) : Outcome :=
  match o with
  | .next t => .next (if t.halted then t else t.timerGate.publish.pace)
  | .fault r => .fault r
  | .refused r => .refused r

end Sys2Proof.Machine
end

