-- ==== Sys2Proof/Machine/Alu.lean ====
section
/-! DEFINITION. Register load, arithmetic, logic, shift, random: spec/41_alu.md. Operands are read
from the state before the instruction (R140); none can raise a fatal condition. -/

namespace Sys2Proof.Machine

/-- The end of an instruction that writes `V[x]` only. -/
def writeReg (x : Nibble) (b : Byte) (s : State) : Outcome := .next (s.setReg x b).advance

/-- The end of an instruction that writes `VF` and then `V[x]` (R140). -/
def writeFlagReg (x : Nibble) (flag result : Byte) (s : State) : Outcome :=
  .next (s.setFlagThenReg x flag result).advance

/-- `LD Vx,kk` (R141). -/
def execLdImm (x : Nibble) (kk : Byte) (s : State) : Outcome := writeReg x kk s

/-- `ADD Vx,kk` (R142): modulo 256, no flag. -/
def execAddImm (x : Nibble) (kk : Byte) (s : State) : Outcome := writeReg x (s.reg x + kk) s

/-- `LD Vx,Vy` (R143). -/
def execLdReg (x y : Nibble) (s : State) : Outcome := writeReg x (s.reg y) s

/-- `OR Vx,Vy` (R144): `VF` is not written (D23, log 22). -/
def execOr (x y : Nibble) (s : State) : Outcome := writeReg x (s.reg x ||| s.reg y) s

/-- `AND Vx,Vy` (R145). -/
def execAnd (x y : Nibble) (s : State) : Outcome := writeReg x (s.reg x &&& s.reg y) s

/-- `XOR Vx,Vy` (R146). -/
def execXor (x y : Nibble) (s : State) : Outcome := writeReg x (s.reg x ^^^ s.reg y) s

/-- `ADD Vx,Vy` (R147). -/
def execAddReg (x y : Nibble) (s : State) : Outcome :=
  writeFlagReg x (carryFlag (s.reg x) (s.reg y)) (s.reg x + s.reg y) s

/-- `SUB Vx,Vy` (R148). -/
def execSub (x y : Nibble) (s : State) : Outcome :=
  writeFlagReg x (greaterFlag (s.reg x) (s.reg y)) (s.reg x - s.reg y) s

/-- `SHR Vx` (R149): in place, logical; `Vy` has no effect. -/
def execShr (x _y : Nibble) (s : State) : Outcome :=
  writeFlagReg x (shrFlag (s.reg x)) (s.reg x >>> 1) s

/-- `SUBN Vx,Vy` (R150). -/
def execSubn (x y : Nibble) (s : State) : Outcome :=
  writeFlagReg x (greaterFlag (s.reg y) (s.reg x)) (s.reg y - s.reg x) s

/-- `SHL Vx` (R151): in place; `Vy` has no effect. -/
def execShl (x _y : Nibble) (s : State) : Outcome :=
  writeFlagReg x (shlFlag (s.reg x)) (s.reg x <<< 1) s

/-- `RND Vx,kk` (R152): the byte on the `rand` port in this cycle, under the mask. -/
def execRnd (x : Nibble) (kk : Byte) (s : State) : Outcome := writeReg x (s.rand &&& kk) s

end Sys2Proof.Machine
end

