-- ==== Sys2Proof/Machine/Control.lean ====
section
/-! DEFINITION. Control transfer: spec/40_control_flow.md. `pc` is the address of the executing
instruction (R23); every meaning leaves in `pc` its value at the end of the cycle (R120). -/

namespace Sys2Proof.Machine

/-- `JP nnn` (R121). -/
def execJp (nnn : Addr12) (s : State) : Outcome := .next (s.jumpTo (zextAddr nnn))

/-- `CALL nnn` (R122): pushes its own address, the `pc` that has not advanced (C2, D4, log 19). -/
def execCall (nnn : Addr12) (s : State) : Outcome :=
  match s.push s.pc with
  | .go t => .next (t.jumpTo (zextAddr nnn))
  | .raised c t => raise c t

/-- `RET` (R123): the popped value plus 2, the word after the matching `CALL` (C2, D4, log 19). -/
def execRet (s : State) : Outcome :=
  if s.sp = 0 then raise .stackUnderflow s
  else .next (s.pop.jumpTo (s.slot (s.sp - 1) + 2))

/-- `SE Vx,kk` (R124). -/
def execSeImm (x : Nibble) (kk : Byte) (s : State) : Outcome := .next (s.skipIf (s.reg x == kk))

/-- `SNE Vx,kk` (R125). -/
def execSneImm (x : Nibble) (kk : Byte) (s : State) : Outcome := .next (s.skipIf (s.reg x != kk))

/-- `SE Vx,Vy` (R126). -/
def execSeReg (x y : Nibble) (s : State) : Outcome := .next (s.skipIf (s.reg x == s.reg y))

/-- `SNE Vx,Vy` (R127). -/
def execSneReg (x y : Nibble) (s : State) : Outcome := .next (s.skipIf (s.reg x != s.reg y))

/-- `JP V0,nnn` (R128): the sum is not reduced to 12 bits and cannot wrap. -/
def execJpV0 (nnn : Addr12) (s : State) : Outcome :=
  .next (s.jumpTo (zextByte (s.reg 0) + zextAddr nnn))

end Sys2Proof.Machine
end

