-- ==== Sys2Proof/Machine/Index.lean ====
section
/-! DEFINITION. Index register and memory transfer: spec/42_index_memory.md. `I` is never changed by
a transfer (R166). -/

namespace Sys2Proof.Machine

/-- `LD I,nnn` (R160). -/
def execLdI (nnn : Addr12) (s : State) : Outcome := .next (s.setI (zextAddr nnn)).advance

/-- `ADD I,Vx` (R161): modulo 65536, no flag, no fault. -/
def execAddI (x : Nibble) (s : State) : Outcome := .next (s.setI (s.i + zextByte (s.reg x))).advance

/-- `LD F,Vx` (R162). -/
def execLdF (x : Nibble) (s : State) : Outcome := .next (s.setI (glyphAddr (s.reg x))).advance

/-- `LD B,Vx` (R163): hundreds, tens, ones at `I`, `I+1`, `I+2`, each access checked on its own
(R166). -/
def execLdB (x : Nibble) (s : State) : Outcome :=
  ((s.write (s.effAddr 0) (hundreds (s.reg x))).andThen fun t =>
    (t.write (t.effAddr 1) (tens (s.reg x))).andThen fun u =>
      u.write (u.effAddr 2) (ones (s.reg x))).finish

/-- `M[I+k] <- V[k]` for `n` registers from `k` on, ascending (R164). -/
def storeRegs (n k : Nat) (s : State) : Flow :=
  match n with
  | 0 => .go s
  | n + 1 => (s.write (s.effAddr k) (s.reg (BitVec.ofNat 4 k))).andThen (storeRegs n (k + 1))

/-- `V[k] <- M[I+k]` for `n` registers from `k` on, ascending (R165). -/
def loadRegs (n k : Nat) (s : State) : Flow :=
  match n with
  | 0 => .go s
  | n + 1 =>
    match s.read (s.effAddr k) with
    | some b => loadRegs n (k + 1) (s.setReg (BitVec.ofNat 4 k) b)
    | none => .raised (.memOutOfBounds (s.effAddr k) .read) s

/-- `LD [I],Vx` (R164): registers 0 to `x`, inclusive. -/
def execLdMemVx (x : Nibble) (s : State) : Outcome := (storeRegs (x.toNat + 1) 0 s).finish

/-- `LD Vx,[I]` (R165): registers 0 to `x`, inclusive. -/
def execLdVxMem (x : Nibble) (s : State) : Outcome := (loadRegs (x.toNat + 1) 0 s).finish

end Sys2Proof.Machine
end

