-- ==== Sys2Proof/Machine/Step.lean ====
section
/-! DEFINITION. One cycle of the coordinator (R190), and where a word is placed for the next fetch. -/

namespace Sys2Proof.Machine

/-- One cycle (R190): poll, fetch, decode, execute, timer gate, publish, pace. A raise in phase 2, 3
or 4 ends the cycle in the halted state; a halted machine has no step (R197). -/
def step (s : State) : Host.Outcome State Fault Refusal :=
  if s.halted then .fault (.halted s.fault)
  else
    match s.pollInput.fetchDecode with
    | .error c => raise c s.pollInput
    | .ok i => endCycle (exec i s.pollInput)

/-- The host's placement of an instruction: its two bytes where the next step fetches, at `pc` and
`pc + 1` (R66), for a `pc` of at most 4094. Nothing else changes; it stands for the program load
(R242, log 15). -/
def State.withFetchWord (s : State) (nbits w : Nat) : State := s.placeWord (tableWord nbits w)

end Sys2Proof.Machine
end

