-- ==== Sys2Proof/Safety.lean ====
section
/-! DEFINITION. What counts as a safe run, the invariants, and the words claims are stated in. -/

namespace Sys2Proof.Machine

/-- The machine runs: no fatal condition has been raised (R31). -/
abbrev State.Running (s : State) : Prop := s.halted = false

/-- `n` cycles, stopping at the first step that has no next state: `Host.Core.run` of this machine, over
its own types (`Machine.run_core`). -/
def runFor (n : Nat) (s : State) : Outcome :=
  match n with
  | 0 => .next s
  | n + 1 =>
    match step s with
    | .next t => runFor n t
    | .fault r => .fault r
    | .refused r => .refused r

/-- `n` further cycles complete, none of them raising a fatal condition (R218: a fatal condition
refutes any claim that the program runs safely). -/
def safeFor (n : Nat) (s : State) : Bool :=
  match n with
  | 0 => !s.halted
  | n + 1 =>
    !s.halted &&
      match step s with
      | .next t => safeFor n t
      | .fault _ => false
      | .refused _ => false

/-- The end of a run as the spec offers it and does not impose it (R199, D22, log 28): `pc` holds the
address of a `JP` to that address. -/
def State.spinsAtJump (s : State) : Prop :=
  ∃ nnn : Addr12, s.fetchDecode = .ok (.jp nnn) ∧ zextAddr nnn = s.pc

/-- What holds of every state of a run: memory is canonical, the depth is 0 to 16 (R24), the counter
0 to 9 (R27), and a cause is recorded exactly when the machine is halted (R31). -/
structure State.Inv (s : State) : Prop where
  mem_wf : s.mem.wf = true
  sp_le : s.sp ≤ Config.stackDepth
  tick_lt : s.tick < Config.timerDiv
  halted_iff : s.halted = s.fault.isSome

/-- The bounds of R23 and R123: every occupied slot holds the address of a fetched `CALL`, at most
4094, and `pc` is at most 0x10FE. -/
structure State.PcBounded (s : State) : Prop where
  sp_le : s.sp ≤ Config.stackDepth
  slots : ∀ k, k < s.sp → (s.slot k).toNat ≤ 4094
  pc_le : s.pc.toNat ≤ 0x10FE

/-- The clipped sprite mask of R174 inside the grid: cell `(cx, cy)` lies under the sprite that starts
at `(x0, y0)` and has `n` rows at `I`, and its bit is set. Column `c` of a row is bit `7 - c` (R173). -/
def spriteBit (s : State) (x0 y0 n cx cy : Nat) : Bool :=
  decide (x0 ≤ cx ∧ cx < x0 + 8 ∧ y0 ≤ cy ∧ cy < y0 + n) &&
    (s.mem.byte (s.effAddr (cy - y0))).getLsbD (7 - (cx - x0))

/-! ### What a step leaves unchanged -/

/-- Every register but those of `written`. -/
def KeepsRegsBut (written : List Nibble) (s t : State) : Prop :=
  ∀ r, r ∉ written → t.reg r = s.reg r

/-- Every byte of memory. -/
def KeepsMemory (s t : State) : Prop := ∀ a, t.mem.byte a = s.mem.byte a

/-- Every cell of the display. -/
def KeepsDisplay (s t : State) : Prop := ∀ cx cy, Display.cell t.disp cx cy = Display.cell s.disp cx cy

/-- Every cell of the 64 by 32 grid. -/
def KeepsDisplayInGrid (s t : State) : Prop :=
  ∀ cx cy, cx < 64 → cy < 32 → Display.cell t.disp cx cy = Display.cell s.disp cx cy

/-- The return stack: the depth and every slot. -/
def KeepsStack (s t : State) : Prop := t.sp = s.sp ∧ ∀ k, t.slot k = s.slot k

/-- Both timers. -/
def KeepsTimers (s t : State) : Prop := t.dt = s.dt ∧ t.st = s.st

/-- The counter, the key latch, the fault latch, the ports, and the model's own fields: what no
instruction writes, a fatal condition apart. -/
def KeepsRest (s t : State) : Prop :=
  t.tick = s.tick ∧ t.key = s.key ∧ t.halted = s.halted ∧ t.fault = s.fault ∧ t.out = s.out ∧
    t.rand = s.rand ∧ t.inputs = s.inputs ∧ t.cycle = s.cycle ∧ t.loaded = s.loaded

/-- Everything but the registers, `I` and `pc`. -/
def KeepsOutsideRegs (s t : State) : Prop :=
  KeepsMemory s t ∧ KeepsDisplay s t ∧ KeepsStack s t ∧ KeepsTimers s t ∧ KeepsRest s t

/-- `i` completes in `s` with the ordinary advance (R120), the registers of `written` and nothing else
may have changed, and `post` holds of the next state. -/
def CompletesInRegs (i : Instr) (s : State) (written : List Nibble) (post : State → Prop) : Prop :=
  ∃ t, exec i s = .next t ∧ post t ∧ t.pc = s.pc + 2 ∧ t.i = s.i ∧ KeepsRegsBut written s t ∧
    KeepsOutsideRegs s t

/-- `i` completes in `s` as a skip (R120, R129): `pc` moves by 4 when `c` holds and by 2 when not,
and nothing else changes. -/
def CompletesAsSkip (i : Instr) (s : State) (c : Prop) : Prop :=
  ∃ t, exec i s = .next t ∧ (c → t.pc = s.pc + 4) ∧ (¬c → t.pc = s.pc + 2) ∧ t.i = s.i ∧
    KeepsRegsBut [] s t ∧ KeepsOutsideRegs s t

/-- What a fatal condition that changes no architectural state leaves (R218): everything but the
fault latch, the key latch, the port and the model's own fields. -/
def KeepsArchitecture (s t : State) : Prop :=
  t.pc = s.pc ∧ t.i = s.i ∧ KeepsRegsBut [] s t ∧ KeepsMemory s t ∧ KeepsDisplay s t ∧
    KeepsStack s t ∧ KeepsTimers s t ∧ t.tick = s.tick

/-! ### Which registers an instruction may write -/

/-- The six instructions that write `VF` as a side effect (R21). -/
def setsFlag (i : Instr) : Bool :=
  match i with
  | .addReg _ _ => true
  | .sub _ _ => true
  | .shr _ _ => true
  | .subn _ _ => true
  | .shl _ _ => true
  | .drw _ _ _ => true
  | .cls => false
  | .ret => false
  | .jp _ => false
  | .call _ => false
  | .seImm _ _ => false
  | .seReg _ _ => false
  | .sneImm _ _ => false
  | .sneReg _ _ => false
  | .ldImm _ _ => false
  | .addImm _ _ => false
  | .ldReg _ _ => false
  | .orReg _ _ => false
  | .andReg _ _ => false
  | .xorReg _ _ => false
  | .ldI _ => false
  | .jpV0 _ => false
  | .rnd _ _ => false
  | .skp _ => false
  | .sknp _ => false
  | .ldVxDT _ => false
  | .ldDTVx _ => false
  | .ldSTVx _ => false
  | .ldVxK _ => false
  | .addI _ => false
  | .ldF _ => false
  | .ldB _ => false
  | .ldMemVx _ => false
  | .ldVxMem _ => false

/-- Register `r` is one the instruction names as written: the rows `V[i]` and `V[0]` to `V[x]` of
R36. -/
def namesWritten (i : Instr) (r : Nibble) : Bool :=
  match i with
  | .ldImm x _ => r == x
  | .addImm x _ => r == x
  | .ldReg x _ => r == x
  | .orReg x _ => r == x
  | .andReg x _ => r == x
  | .xorReg x _ => r == x
  | .addReg x _ => r == x
  | .sub x _ => r == x
  | .shr x _ => r == x
  | .subn x _ => r == x
  | .shl x _ => r == x
  | .rnd x _ => r == x
  | .ldVxDT x => r == x
  | .ldVxK x => r == x
  | .ldVxMem x => decide (r.toNat ≤ x.toNat)
  | .cls => false
  | .ret => false
  | .jp _ => false
  | .call _ => false
  | .seImm _ _ => false
  | .seReg _ _ => false
  | .sneImm _ _ => false
  | .sneReg _ _ => false
  | .ldI _ => false
  | .jpV0 _ => false
  | .drw _ _ _ => false
  | .skp _ => false
  | .sknp _ => false
  | .ldDTVx _ => false
  | .ldSTVx _ => false
  | .addI _ => false
  | .ldF _ => false
  | .ldB _ => false
  | .ldMemVx _ => false

/-! ### Which causes an instruction may raise, and which of the environment's inputs it reads -/

/-- `MemOutOfBounds` of a kind, at any address. -/
def Cause.isBounds (c : Cause) (kind : AccessKind) : Bool :=
  match c with
  | .memOutOfBounds _ k => k == kind
  | .decodeError _ => false
  | .stackOverflow => false
  | .stackUnderflow => false
  | .loadTooLarge _ => false
  | .keyIndexRange _ => false

/-- `KeyIndexRange`, of any index. -/
def Cause.isKeyIndex (c : Cause) : Bool :=
  match c with
  | .keyIndexRange _ => true
  | .memOutOfBounds _ _ => false
  | .decodeError _ => false
  | .stackOverflow => false
  | .stackUnderflow => false
  | .loadTooLarge _ => false

/-- The column "raised by" of R210, for the execute phase (R212 to R214, R216, R217). -/
def mayRaise (i : Instr) (c : Cause) : Bool :=
  match i with
  | .cls => false
  | .ret => c == .stackUnderflow
  | .jp _ => false
  | .call _ => c == .stackOverflow
  | .seImm _ _ => false
  | .seReg _ _ => false
  | .sneImm _ _ => false
  | .sneReg _ _ => false
  | .ldImm _ _ => false
  | .addImm _ _ => false
  | .ldReg _ _ => false
  | .orReg _ _ => false
  | .andReg _ _ => false
  | .xorReg _ _ => false
  | .addReg _ _ => false
  | .sub _ _ => false
  | .shr _ _ => false
  | .subn _ _ => false
  | .shl _ _ => false
  | .ldI _ => false
  | .jpV0 _ => false
  | .rnd _ _ => false
  | .drw _ _ _ => c.isBounds .read
  | .skp _ => c.isKeyIndex
  | .sknp _ => c.isKeyIndex
  | .ldVxDT _ => false
  | .ldDTVx _ => false
  | .ldSTVx _ => false
  | .ldVxK _ => false
  | .addI _ => false
  | .ldF _ => false
  | .ldB _ => c.isBounds .write
  | .ldMemVx _ => c.isBounds .write
  | .ldVxMem _ => c.isBounds .read

/-- The instructions that read the key latch (R36) or the random port (R200). -/
def readsInput (i : Instr) : Bool :=
  match i with
  | .cls => false
  | .ret => false
  | .jp _ => false
  | .call _ => false
  | .seImm _ _ => false
  | .seReg _ _ => false
  | .sneImm _ _ => false
  | .sneReg _ _ => false
  | .ldImm _ _ => false
  | .addImm _ _ => false
  | .ldReg _ _ => false
  | .orReg _ _ => false
  | .andReg _ _ => false
  | .xorReg _ _ => false
  | .addReg _ _ => false
  | .sub _ _ => false
  | .shr _ _ => false
  | .subn _ _ => false
  | .shl _ _ => false
  | .ldI _ => false
  | .jpV0 _ => false
  | .rnd _ _ => true
  | .drw _ _ _ => false
  | .skp _ => true
  | .sknp _ => true
  | .ldVxDT _ => false
  | .ldDTVx _ => false
  | .ldSTVx _ => false
  | .ldVxK _ => true
  | .addI _ => false
  | .ldF _ => false
  | .ldB _ => false
  | .ldMemVx _ => false
  | .ldVxMem _ => false

end Sys2Proof.Machine
end

