-- ==== Sys2Proof/Certificates/Slice0/Obligations.lean ====
section
/-! DEFINITION. The statements for the provers. Each docstring names the rule or section of spec/ the
statement formalises; that a fatal condition is a halted next state is the model's choice (log 1), and
that `exec` runs on halted states too (log 25). The frame words (`KeepsMemory`, `KeepsOutsideRegs`, …) are those of
Sys2Proof/Safety.lean and read memory one byte at a time. -/

open Sys2Proof Sys2Proof.Machine

/-! ### Encoding -/

/-- 30_encoding.md sections 1 and 2. No bit of an operand is dropped, at every value the encoding
admits, and decoding consumes exactly the two bytes. The patterns are the spec's from general
knowledge (D1, log 8). -/
def Obligations.DecodeOfEncodeIsIdentity : Prop :=
  ∀ i : Instr, i.wellFormed = true →
    decode (encode i) = .ok i ∧
      ∀ rest : List Byte, decodeBytes (encodeBytes i ++ rest) = .ok (i, rest)

/-- 30_encoding.md section 2. Every mapped word has one meaning: an instruction has no second
spelling (log 8). -/
def Obligations.EncodeOfDecodeIsIdentity : Prop :=
  ∀ (op : Word) (i : Instr), decode op = .ok i → encode i = op

/-- 30_encoding.md section 2, the table of unmapped words, group by group (strict masks, D2,
log 16). Groups 1, 2, 3, 4, 6, 7, A, B, C, D have none. -/
def Obligations.UnmappedWordsAreThoseOfTheTable : Prop :=
  ∀ op : Word, (∃ r, decode op = .error r) ↔
    (op.toNat / 4096 = 0x0 ∧ op.toNat ≠ 0x00E0 ∧ op.toNat ≠ 0x00EE) ∨
    (op.toNat / 4096 = 0x5 ∧ op.toNat % 16 ≠ 0) ∨
    (op.toNat / 4096 = 0x8 ∧ op.toNat % 16 ∈ [0x8, 0x9, 0xA, 0xB, 0xC, 0xD, 0xF]) ∨
    (op.toNat / 4096 = 0x9 ∧ op.toNat % 16 ≠ 0) ∨
    (op.toNat / 4096 = 0xE ∧ op.toNat % 256 ∉ [0x9E, 0xA1]) ∨
    (op.toNat / 4096 = 0xF ∧
      op.toNat % 256 ∉ [0x07, 0x0A, 0x15, 0x18, 0x1E, 0x29, 0x33, 0x55, 0x65])

/-- The worked encodings of 30_encoding.md (R100) and one word of every family, from the examples of
the instruction rules. The patterns are the spec's from general knowledge (D1, log 8). -/
def Obligations.WorkedEncodingsDecode : Prop :=
  decode 0x1300 = .ok (.jp 0x300) ∧ decode 0x632A = .ok (.ldImm 3 0x2A) ∧
  decode 0x8AB4 = .ok (.addReg 0xA 0xB) ∧ decode 0xD125 = .ok (.drw 1 2 5) ∧
  decode 0xFE65 = .ok (.ldVxMem 0xE) ∧ decode 0xE0A1 = .ok (.sknp 0) ∧
  decode 0xF333 = .ok (.ldB 3) ∧ decode 0x00EE = .ok .ret ∧
  decode 0x8AB8 = .error (.unmapped 0x8AB8) ∧ decode 0x00E1 = .error (.unmapped 0x00E1) ∧
  decode 0x5121 = .error (.unmapped 0x5121)

/-! ### Reset, load, fetch -/

/-- R240: the value of every piece of state after reset, whatever 80 bytes the parameter `FONT` has; the
default of the parameter gives `State.reset` (log 9). -/
def Obligations.ResetLeavesTheStatedValues : Prop :=
  (∀ font : Config.Font,
    (∀ r, (State.resetWith font).reg r = 0) ∧ (State.resetWith font).i = 0 ∧
    (State.resetWith font).pc.toNat = 0x200 ∧ (State.resetWith font).sp = 0 ∧
    (∀ k, k < 16 → (State.resetWith font).slot k = 0) ∧
    (State.resetWith font).dt = 0 ∧ (State.resetWith font).st = 0 ∧
    (State.resetWith font).tick = 0 ∧
    (∀ a, (h : a < 80) → (State.resetWith font).mem.byte a = font[a]) ∧
    (∀ a, 80 ≤ a → (State.resetWith font).mem.byte a = 0) ∧
    (∀ cx cy, Display.cell (State.resetWith font).disp cx cy = false) ∧
    (∀ k, (State.resetWith font).keyDown k = false) ∧
    (State.resetWith font).halted = false ∧ (State.resetWith font).fault = none) ∧
  State.resetWith Config.font = State.reset

/-- 20_memory.md section 4 and 70_reset_and_hazards.md section 2: whatever the font, a program that fits
is placed verbatim at 0x200, bytes it does not cover keep their reset value, nothing else changes; it
can then not be loaded again (`loaded` is the model's own field, log 15). -/
def Obligations.LoadPlacesTheProgram : Prop :=
  ∀ (font : Config.Font) (bytes : List Byte), bytes.length ≤ 3584 →
    ∃ t, (State.resetWith font).load bytes = .next t ∧
      (∀ k, (h : k < bytes.length) → t.mem.byte (0x200 + k) = bytes[k]) ∧
      (∀ a, a < 0x200 ∨ 0x200 + bytes.length ≤ a →
        t.mem.byte a = (State.resetWith font).mem.byte a) ∧
      t.mem.wf = true ∧ t = { State.resetWith font with mem := t.mem, loaded := true } ∧
      ∀ more, t.load more = .refused .loadOutOfTurn

/-- R215: a longer program raises `LoadTooLarge` with its length, no byte is copied and no cycle ever
executes, whatever the font. -/
def Obligations.TooLargeProgramNeverRuns : Prop :=
  ∀ (font : Config.Font) (bytes : List Byte), 3584 < bytes.length →
    ∃ t, (State.resetWith font).load bytes = .next t ∧ t.halted = true ∧
      t.fault = some (.loadTooLarge bytes.length) ∧ KeepsMemory (State.resetWith font) t ∧
      ∀ u, step t ≠ .next u

/-- R66: the fetch reads two bytes, the one at the lower address high, and raises where `pc` is 4095
or more. -/
def Obligations.FetchIsBigEndianAndBounded : Prop :=
  ∀ s : State,
    (s.pc.toNat < 4095 → ∃ op, s.fetchWord = some op ∧
      op.toNat = 256 * (s.mem.byte s.pc.toNat).toNat + (s.mem.byte (s.pc.toNat + 1)).toNat) ∧
    (4095 ≤ s.pc.toNat → s.fetchDecode = .error (.memOutOfBounds s.pc.toNat .fetch))

/-- The host's placement of an instruction is what the next fetch reads (model's own, log 15). -/
def Obligations.PlacedWordIsFetched : Prop :=
  ∀ (s : State) (w : Nat), s.pc.toNat < 4095 → w < 65536 →
    ∃ op, (s.withFetchWord 16 w).pollInput.fetchWord = some op ∧ op.toNat = w

/-! ### The cycle -/

/-- 45_cycle_step.md section 1, decode and execute and the order of the cycle: when the bytes at
`pc` decode to `i`, the step polls, executes `i`, and, unless `i` raised, opens the gate and
publishes. -/
def Obligations.StepRunsTheDecodedInstruction : Prop :=
  ∀ (s : State) (i : Instr) (t : State), s.halted = false → s.pc.toNat < 4095 →
    decode (wordOfBytes (s.mem.byte s.pc.toNat) (s.mem.byte (s.pc.toNat + 1))) = .ok i →
    exec i s.pollInput = .next t →
    (t.halted = true → step s = .next t) ∧
    (t.halted = false → step s = .next t.timerGate.publish)

/-- 45_cycle_step.md section 1, the fetch: a `pc` of 4095 or more raises `MemOutOfBounds(pc,
fetch)`, and `pc` is not changed. -/
def Obligations.FetchOutOfBoundsHalts : Prop :=
  ∀ s : State, s.halted = false → 4095 ≤ s.pc.toNat →
    ∃ t, step s = .next t ∧ t.halted = true ∧
      t.fault = some (.memOutOfBounds s.pc.toNat .fetch) ∧ KeepsArchitecture s t

/-- R211: a fetched word that matches no row raises `DecodeError` with the word, and no state has
changed except the key latch. -/
def Obligations.UnmappedWordHalts : Prop :=
  ∀ (s : State) (op : Word) (r : Reject), s.halted = false → s.fetchWord = some op →
    decode op = .error r →
    ∃ t, step s = .next t ∧ t.halted = true ∧ t.fault = some (.decodeError op) ∧
      KeepsArchitecture s t

/-- R197: a halted machine has no step. -/
def Obligations.HaltedMachineHasNoStep : Prop :=
  ∀ s : State, s.halted = true → ∀ t, step s ≠ .next t

/-- 45_cycle_step.md section 2: a machine that is not halted always has a step, whatever the
environment's input; and no instruction stops in a fault or a refusal. The section says "a next state
or a fatal condition": that a fatal condition is a halted next state too is the model's choice (log 1),
and so is that `exec` answers on halted states (log 25). -/
def Obligations.RunningMachineAlwaysSteps : Prop :=
  (∀ s : State, s.halted = false → ∃ t, step s = .next t) ∧
  ∀ (i : Instr) (s : State), ∃ t, exec i s = .next t

/-- 45_cycle_step.md section 1, the poll: after it a key is as the last event that names it says, and
a key no event names is as before; nothing else of the architecture changes. -/
def Obligations.KeyEventsTakeEffectInOrder : Prop :=
  ∀ (s : State) (k : Nibble),
    (s.pollInput.keyDown k.toNat =
      match (s.cycleInput.events.filter (fun e => e.key == k)).getLast? with
      | none => s.keyDown k.toNat
      | some e => e.pressed) ∧
    KeepsArchitecture s s.pollInput

/-- 45_cycle_step.md section 1, the gate: every completed cycle counts, in every tenth each timer that
is not 0 loses 1 after the instruction has executed, and a timer at 0 stays at 0 (the counter is the
spec's D16, log 13). -/
def Obligations.TimerGateOpensEveryTenthCycle : Prop :=
  ∀ (s : State) (i : Instr) (t : State), s.halted = false → s.tick < 10 →
    s.pollInput.fetchDecode = .ok i → exec i s.pollInput = .next t → t.halted = false →
    ∃ u, step s = .next u ∧ u.tick = (s.tick + 1) % 10 ∧
      u.dt.toNat = t.dt.toNat - (if s.tick = 9 then 1 else 0) ∧
      u.st.toNat = t.st.toNat - (if s.tick = 9 then 1 else 0)

/-- R195: a completed cycle publishes the buffer and `st` as they stand at its end; a cycle that
raises publishes nothing; publishing changes no state but the two ports. -/
def Obligations.CompletedCyclePublishesItsEnd : Prop :=
  (∀ s t : State, step s = .next t →
    (t.halted = false → t.out = some { fb := t.disp, stOut := t.st }) ∧
    (t.halted = true → t.out = s.out)) ∧
  ∀ s : State, { s.publish with out := s.out } = s

/-- 45_cycle_step.md section 1: along a run the counter is the number of completed cycles modulo ten
(D16, log 13). -/
def Obligations.TickCountsCompletedCycles : Prop :=
  ∀ (n : Nat) (s t : State), s.tick < 10 → runFor n s = .next t →
    t.halted = false → t.tick = (s.tick + n) % 10

/-- 45_cycle_step.md sections 1 and 2: a machine at a jump to its own address (the finished machine
the spec offers, D22, log 28) runs for ever whatever the keys do; each timer has lost one for every
ten cycles counted and stops at 0, and registers, `I`, `pc`, memory, display and stack stay. With
`tick = 0` and `dt = 5`, exactly 10 cycles reduce `dt` to 4, not earlier. The count rests on the
spec's counter (D16, log 13). -/
def Obligations.SpinningMachineCountsDown : Prop :=
  ∀ (n : Nat) (s : State), s.halted = false → s.tick < 10 → s.spinsAtJump →
    ∃ t, runFor n s = .next t ∧ t.halted = false ∧
      t.dt.toNat = s.dt.toNat - (s.tick + n) / 10 ∧ t.st.toNat = s.st.toNat - (s.tick + n) / 10 ∧
      t.pc = s.pc ∧ t.i = s.i ∧ KeepsRegsBut [] s t ∧ KeepsMemory s t ∧ KeepsDisplay s t ∧
      KeepsStack s t

/-- 60_exceptions.md section 1 and 92_eei_decisions.md section 4: `n` safe cycles are exactly `n`
steps that all have a next state, the last of them not halted (log 1). -/
def Obligations.SafeCyclesAreCompletedSteps : Prop :=
  ∀ (n : Nat) (s : State), safeFor n s = true ↔
    ∃ t, runFor n s = .next t ∧ t.halted = false

/-! ### Invariants -/

/-- The invariant holds after reset, whatever the font (model's form, logs 12, 13, 21). -/
def Obligations.ResetSatisfiesTheInvariant : Prop :=
  State.reset.Inv ∧ ∀ font : Config.Font, (State.resetWith font).Inv

/-- 10_state.md sections 3 to 6: from every state that satisfies it, reached or not, a step keeps the
memory canonical, the depth within 16, the counter below 10, and a cause recorded exactly when the
machine is halted. The model's form of the state (logs 12, 13, 21), of a halted one too (logs 1, 2). -/
def Obligations.StepKeepsTheInvariant : Prop :=
  ∀ s t : State, s.Inv → step s = .next t → t.Inv

/-- The bounds hold after reset, whatever the font. -/
def Obligations.ResetIsPcBounded : Prop :=
  State.reset.PcBounded ∧ ∀ font : Config.Font, (State.resetWith font).PcBounded

/-- 10_state.md section 2 and 40_control_flow.md section 2 (inferences the spec marks as its own): a
step keeps `pc` at most 0x10FE and every occupied slot at most 4094, so neither `pc + 4` nor a
return ever wraps. What it says of a halted state is the model's choice (log 2). -/
def Obligations.StepKeepsPcBounded : Prop :=
  ∀ s t : State, s.PcBounded → step s = .next t → t.PcBounded

/-! ### Who writes what -/

/-- 10_state.md section 8: memory, the display and the return stack change by the instructions of
their rows only. A halted state is not read (D18, log 2). -/
def Obligations.MemoryDisplayStackHaveTheirWriters : Prop :=
  ∀ (i : Instr) (s t : State), exec i s = .next t → t.halted = false →
    ((∀ x, i ≠ .ldB x ∧ i ≠ .ldMemVx x) → KeepsMemory s t) ∧
    ((i ≠ .cls ∧ ∀ x y n, i ≠ .drw x y n) → KeepsDisplay s t) ∧
    ((i ≠ .ret ∧ ∀ nnn, i ≠ .call nnn) → KeepsStack s t)

/-- 10_state.md section 8: `I` and the timers change by the instructions of their rows only; no
instruction writes the counter, the key latch or a port, nor the model's own fields. A halted state is
not read (D18, log 2). -/
def Obligations.IndexTimersLatchHaveTheirWriters : Prop :=
  ∀ (i : Instr) (s t : State), exec i s = .next t → t.halted = false →
    ((∀ nnn x, i ≠ .ldI nnn ∧ i ≠ .addI x ∧ i ≠ .ldF x) → t.i = s.i) ∧
    ((∀ x, i ≠ .ldDTVx x) → t.dt = s.dt) ∧ ((∀ x, i ≠ .ldSTVx x) → t.st = s.st) ∧
    t.tick = s.tick ∧ t.key = s.key ∧ t.out = s.out ∧ t.rand = s.rand ∧ t.inputs = s.inputs ∧
    t.cycle = s.cycle ∧ t.loaded = s.loaded

/-- 10_state.md sections 1 and 8: `VF` is written as a side effect by exactly six instructions, and
every other register only where the instruction names it. A halted state is not read (D18, log 2). -/
def Obligations.RegistersChangeOnlyWhereNamed : Prop :=
  ∀ (i : Instr) (s t : State) (r : Nibble), exec i s = .next t → t.halted = false →
    namesWritten i r = false → (r = vf → setsFlag i = false) → t.reg r = s.reg r

/-- 60_exceptions.md section 1: an instruction that halts a running machine records a cause, and only
the instructions listed there raise one, each its own. -/
def Obligations.OnlyTheListedInstructionsRaise : Prop :=
  ∀ (i : Instr) (s t : State), s.halted = false → exec i s = .next t → t.halted = true →
    ∃ c, t.fault = some c ∧ mayRaise i c = true

/-- 10_state.md section 8 and 45_cycle_step.md section 3: an instruction other than `RND`, `SKP`,
`SKNP` and `LD Vx,K` runs alike whatever the environment has put on the random port and into the key
latch. Where such an instruction raises, the halted states agree too, by the model's choice of what they
hold, which the spec leaves open (R218, D18, log 2). -/
def Obligations.InputsAreSeenOnlyByTheirReaders : Prop :=
  ∀ (i : Instr) (s t : State) (key : BitVec 16) (rand : Byte), readsInput i = false →
    exec i s = .next t →
    exec i { s with key := key, rand := rand } = .next { t with key := key, rand := rand }

/-! ### Control transfer -/

/-- R121: `JP nnn`. -/
def Obligations.JumpSetsPc : Prop :=
  ∀ (nnn : Addr12) (s : State), ∃ t, exec (.jp nnn) s = .next t ∧ t.pc.toNat = nnn.toNat ∧
    t.i = s.i ∧ KeepsRegsBut [] s t ∧ KeepsOutsideRegs s t

/-- R128: `JP V0,nnn`: the base is `V[0]`, the sum is not reduced to 12 bits and does not wrap. -/
def Obligations.IndexedJumpAddsV0 : Prop :=
  ∀ (nnn : Addr12) (s : State), ∃ t, exec (.jpV0 nnn) s = .next t ∧
    t.pc.toNat = (s.reg 0).toNat + nnn.toNat ∧ t.i = s.i ∧ KeepsRegsBut [] s t ∧
    KeepsOutsideRegs s t

/-- 40_control_flow.md section 2: `CALL nnn` pushes its own address (the spec's reading D4, log 19).
-/
def Obligations.CallPushesItsOwnAddress : Prop :=
  ∀ (nnn : Addr12) (s : State), s.sp < 16 →
    ∃ t, exec (.call nnn) s = .next t ∧ t.pc.toNat = nnn.toNat ∧ t.sp = s.sp + 1 ∧
      t.slot s.sp = s.pc ∧ (∀ k, k ≠ s.sp → t.slot k = s.slot k) ∧ t.i = s.i ∧
      KeepsRegsBut [] s t ∧ KeepsMemory s t ∧ KeepsDisplay s t ∧ KeepsTimers s t ∧ KeepsRest s t

/-- R213: a `CALL` with 16 occupied slots raises `StackOverflow` before a slot, `sp` or `pc` is
written. -/
def Obligations.CallOnFullStackHalts : Prop :=
  ∀ (nnn : Addr12) (s : State), s.sp = 16 →
    ∃ t, exec (.call nnn) s = .next t ∧ t.halted = true ∧ t.fault = some .stackOverflow ∧
      KeepsStack s t ∧ t.pc = s.pc

/-- 40_control_flow.md section 2: `RET` goes on at the popped address plus 2, modulo 65536; the
vacated slot keeps its value (the spec's D4, D5, logs 12, 19). -/
def Obligations.ReturnGoesPastThePoppedAddress : Prop :=
  ∀ s : State, 0 < s.sp → s.sp ≤ 16 →
    ∃ t, exec .ret s = .next t ∧ t.pc.toNat = ((s.slot (s.sp - 1)).toNat + 2) % 65536 ∧
      t.sp = s.sp - 1 ∧ (∀ k, t.slot k = s.slot k) ∧ t.i = s.i ∧ KeepsRegsBut [] s t ∧
      KeepsMemory s t ∧ KeepsDisplay s t ∧ KeepsTimers s t ∧ KeepsRest s t

/-- R214: a `RET` on an empty stack raises `StackUnderflow` before anything is written. -/
def Obligations.ReturnOnEmptyStackHalts : Prop :=
  ∀ s : State, s.sp = 0 →
    ∃ t, exec .ret s = .next t ∧ t.halted = true ∧ t.fault = some .stackUnderflow ∧
      KeepsArchitecture s t

/-- 20_memory.md section 3 and 40_control_flow.md section 2: whatever a subroutine did, if it left the
stack as the `CALL` did, the `RET` resumes at the word after the `CALL` with the caller's stack. -/
def Obligations.CallThenReturnResumesAfterTheCall : Prop :=
  ∀ (nnn : Addr12) (s t u : State), s.sp < 16 → exec (.call nnn) s = .next t → KeepsStack t u →
    ∃ w, exec .ret u = .next w ∧ w.pc = s.pc + 2 ∧ w.sp = s.sp ∧ ∀ k, k < s.sp → w.slot k = s.slot k

/-- R124 to R127: the four compare skips, for every register and every byte, `x = y` included. -/
def Obligations.CompareSkipsMoveByFourOrTwo : Prop :=
  ∀ (x y : Nibble) (kk : Byte) (s : State),
    CompletesAsSkip (.seImm x kk) s ((s.reg x).toNat = kk.toNat) ∧
    CompletesAsSkip (.sneImm x kk) s ((s.reg x).toNat ≠ kk.toNat) ∧
    CompletesAsSkip (.seReg x y) s ((s.reg x).toNat = (s.reg y).toNat) ∧
    CompletesAsSkip (.sneReg x y) s ((s.reg x).toNat ≠ (s.reg y).toNat)

/-! ### Registers -/

/-- R141, R143 to R146: `LD Vx,kk`, `LD Vx,Vy`, and the three logic instructions bit by bit; `VF` is
an ordinary register for them. -/
def Obligations.LoadsAndLogicWriteVxOnly : Prop :=
  ∀ (x y : Nibble) (kk : Byte) (s : State),
    CompletesInRegs (.ldImm x kk) s [x] (fun t => t.reg x = kk) ∧
    CompletesInRegs (.ldReg x y) s [x] (fun t => t.reg x = s.reg y) ∧
    CompletesInRegs (.orReg x y) s [x] (fun t => ∀ j,
      (t.reg x).getLsbD j = ((s.reg x).getLsbD j || (s.reg y).getLsbD j)) ∧
    CompletesInRegs (.andReg x y) s [x] (fun t => ∀ j,
      (t.reg x).getLsbD j = ((s.reg x).getLsbD j && (s.reg y).getLsbD j)) ∧
    CompletesInRegs (.xorReg x y) s [x] (fun t => ∀ j,
      (t.reg x).getLsbD j = ((s.reg x).getLsbD j ^^ (s.reg y).getLsbD j))

/-- R142: `ADD Vx,kk` wraps modulo 256 and changes no flag. -/
def Obligations.AddImmediateWraps : Prop :=
  ∀ (x : Nibble) (kk : Byte) (s : State),
    CompletesInRegs (.addImm x kk) s [x]
      (fun t => (t.reg x).toNat = ((s.reg x).toNat + kk.toNat) % 256)

/-- 41_alu.md section 7, the table: result and flag of the five flag-writing arithmetic instructions
for `x ≠ 15`; the flag is 0 or 1, the whole byte, and `y` has no effect on the shifts. The `SHL` row
rests on the spec's reading of the condition (D8, log 7). -/
def Obligations.FlagArithmeticTable : Prop :=
  ∀ (x y : Nibble) (s : State) (a b : Nat), x ≠ 15 → a = (s.reg x).toNat → b = (s.reg y).toNat →
    CompletesInRegs (.addReg x y) s [x, vf] (fun t =>
      (t.reg x).toNat = (a + b) % 256 ∧ (t.reg vf).toNat = if a + b > 255 then 1 else 0) ∧
    CompletesInRegs (.sub x y) s [x, vf] (fun t =>
      (t.reg x).toNat = (a + 256 - b) % 256 ∧ (t.reg vf).toNat = if a > b then 1 else 0) ∧
    CompletesInRegs (.subn x y) s [x, vf] (fun t =>
      (t.reg x).toNat = (b + 256 - a) % 256 ∧ (t.reg vf).toNat = if b > a then 1 else 0) ∧
    CompletesInRegs (.shr x y) s [x, vf] (fun t =>
      (t.reg x).toNat = a / 2 ∧ (t.reg vf).toNat = a % 2) ∧
    CompletesInRegs (.shl x y) s [x, vf] (fun t =>
      (t.reg x).toNat = 2 * a % 256 ∧ (t.reg vf).toNat = if a % 8 = 1 then 1 else 0)

/-- 41_alu.md section 1: with `x = 15` both writes go to `V[15]` and the result byte is what remains
(an inference the spec marks as its own, D7, U3, log 6). -/
def Obligations.FlagArithmeticOnRegister15KeepsTheResult : Prop :=
  ∀ (y : Nibble) (s : State) (a b : Nat), a = (s.reg 15).toNat → b = (s.reg y).toNat →
    CompletesInRegs (.addReg 15 y) s [15] (fun t => (t.reg 15).toNat = (a + b) % 256) ∧
    CompletesInRegs (.sub 15 y) s [15] (fun t => (t.reg 15).toNat = (a + 256 - b) % 256) ∧
    CompletesInRegs (.subn 15 y) s [15] (fun t => (t.reg 15).toNat = (b + 256 - a) % 256) ∧
    CompletesInRegs (.shr 15 y) s [15] (fun t => (t.reg 15).toNat = a / 2) ∧
    CompletesInRegs (.shl 15 y) s [15] (fun t => (t.reg 15).toNat = 2 * a % 256)

/-- 41_alu.md section 6: `RND Vx,kk` stores the byte drawn under the mask, whatever byte the port
offers. -/
def Obligations.RandomByteIsMasked : Prop :=
  ∀ (x : Nibble) (kk r : Byte) (s : State), s.rand = r →
    CompletesInRegs (.rnd x kk) s [x] (fun t => ∀ j,
      (t.reg x).getLsbD j = (r.getLsbD j && kk.getLsbD j))

/-! ### Index register and memory -/

/-- R160, R162: `LD I,nnn` and `LD F,Vx`; the whole byte is multiplied and the product does not
wrap. -/
def Obligations.IndexLoads : Prop :=
  ∀ (nnn : Addr12) (x : Nibble) (s : State),
    (∃ t, exec (.ldI nnn) s = .next t ∧ t.i.toNat = nnn.toNat ∧ t.pc = s.pc + 2 ∧
      KeepsRegsBut [] s t ∧ KeepsOutsideRegs s t) ∧
    (∃ t, exec (.ldF x) s = .next t ∧ t.i.toNat = 5 * (s.reg x).toNat ∧ t.pc = s.pc + 2 ∧
      KeepsRegsBut [] s t ∧ KeepsOutsideRegs s t)

/-- 42_index_memory.md section 2: `ADD I,Vx` adds modulo 65536 (the spec's D6, log 18), writes no
flag, and does not fault. -/
def Obligations.IndexAddWrapsAtSixteenBits : Prop :=
  ∀ (x : Nibble) (s : State),
    ∃ t, exec (.addI x) s = .next t ∧ t.i.toNat = (s.i.toNat + (s.reg x).toNat) % 65536 ∧
      t.pc = s.pc + 2 ∧ KeepsRegsBut [] s t ∧ KeepsOutsideRegs s t

/-- R163: `LD B,Vx` stores the three digits at `I`, `I+1`, `I+2` and nothing else where they are in
range, and raises at the first address out of range where not. -/
def Obligations.DecimalDigitsAreStored : Prop :=
  ∀ (x : Nibble) (s : State),
    (s.i.toNat ≤ 4093 → ∃ t, exec (.ldB x) s = .next t ∧
      (t.mem.byte (s.effAddr 0)).toNat = (s.reg x).toNat / 100 ∧
      (t.mem.byte (s.effAddr 1)).toNat = (s.reg x).toNat / 10 % 10 ∧
      (t.mem.byte (s.effAddr 2)).toNat = (s.reg x).toNat % 10 ∧
      (∀ a, a < s.effAddr 0 ∨ s.effAddr 2 < a → t.mem.byte a = s.mem.byte a) ∧
      t.pc = s.pc + 2 ∧ t.i = s.i ∧ KeepsRegsBut [] s t ∧ KeepsDisplay s t ∧ KeepsStack s t ∧
      KeepsTimers s t ∧ KeepsRest s t) ∧
    (4093 < s.i.toNat → ∃ t, exec (.ldB x) s = .next t ∧ t.halted = true ∧
      t.fault = some (.memOutOfBounds (max s.i.toNat 4096) .write))

/-- R164: `LD [I],Vx` stores registers 0 to `x`, inclusive, from `I` on and nothing else where they
are in range, and raises at the first address out of range where not. -/
def Obligations.RegistersAreStored : Prop :=
  ∀ (x : Nibble) (s : State),
    (s.i.toNat + x.toNat ≤ 4095 → ∃ t, exec (.ldMemVx x) s = .next t ∧
      (∀ r : Nibble, r.toNat ≤ x.toNat → t.mem.byte (s.effAddr r.toNat) = s.reg r) ∧
      (∀ a, a < s.effAddr 0 ∨ s.effAddr x.toNat < a → t.mem.byte a = s.mem.byte a) ∧
      t.pc = s.pc + 2 ∧ t.i = s.i ∧ KeepsRegsBut [] s t ∧ KeepsDisplay s t ∧ KeepsStack s t ∧
      KeepsTimers s t ∧ KeepsRest s t) ∧
    (4095 < s.i.toNat + x.toNat → ∃ t, exec (.ldMemVx x) s = .next t ∧ t.halted = true ∧
      t.fault = some (.memOutOfBounds (max s.i.toNat 4096) .write))

/-- R165: `LD Vx,[I]` loads registers 0 to `x`, inclusive, from `I` on; registers above `x` and all of
memory stay; it raises at the first address out of range. -/
def Obligations.RegistersAreLoaded : Prop :=
  ∀ (x : Nibble) (s : State),
    (s.i.toNat + x.toNat ≤ 4095 → ∃ t, exec (.ldVxMem x) s = .next t ∧
      (∀ r : Nibble, r.toNat ≤ x.toNat → t.reg r = s.mem.byte (s.effAddr r.toNat)) ∧
      (∀ r : Nibble, x.toNat < r.toNat → t.reg r = s.reg r) ∧
      t.pc = s.pc + 2 ∧ t.i = s.i ∧ KeepsOutsideRegs s t) ∧
    (4095 < s.i.toNat + x.toNat → ∃ t, exec (.ldVxMem x) s = .next t ∧ t.halted = true ∧
      t.fault = some (.memOutOfBounds (max s.i.toNat 4096) .read))

/-- 20_memory.md sections 2 and 5: a store into the word that follows is fetched in its new form by
the next cycle, `V[0]` as the high byte. -/
def Obligations.StoreIntoTheNextWordIsFetched : Prop :=
  ∀ (x : Nibble) (s t : State), s.halted = false → 1 ≤ x.toNat → s.i.toNat = s.pc.toNat + 2 →
    exec (.ldMemVx x) s = .next t → t.halted = false →
    ∃ op, t.fetchWord = some op ∧ op.toNat = 256 * (s.reg 0).toNat + (s.reg 1).toNat

/-! ### Display -/

/-- R170: `CLS` turns every cell off and changes nothing else, and the cleared buffer is what the same
cycle publishes, 2048 zero bytes, whatever was drawn before and whatever byte `PIXEL_ON` is. -/
def Obligations.ClearTurnsEveryCellOff : Prop :=
  ∀ s : State,
    (∃ t, exec .cls s = .next t ∧ (∀ cx cy, Display.cell t.disp cx cy = false) ∧
      t.pc = s.pc + 2 ∧ t.i = s.i ∧ KeepsRegsBut [] s t ∧ KeepsMemory s t ∧ KeepsStack s t ∧
      KeepsTimers s t ∧ KeepsRest s t) ∧
    (s.halted = false → s.pollInput.fetchDecode = .ok .cls →
      ∃ t p, step s = .next t ∧ t.out = some p ∧ ∀ pixelOn j, p.fbByteWith pixelOn j = 0)

/-- 43_display.md sections 1 and 2, for every `n`, `x` and `y`: the buffer becomes the old one XOR the
clipped sprite mask, only the start is reduced modulo the screen, and `VF` is 1 exactly when a set
cell lay under the mask, else 0; `n = 0` draws nothing and cannot fault. Bit order D10, log 11. -/
def Obligations.DrawXorsTheClippedSprite : Prop :=
  ∀ (x y n : Nibble) (s : State) (x0 y0 : Nat), x0 = (s.reg x).toNat % 64 →
    y0 = (s.reg y).toNat % 32 → (n = 0 ∨ s.i.toNat + n.toNat ≤ 4096) →
    ∃ t, exec (.drw x y n) s = .next t ∧
      (∀ cx cy, cx < 64 → cy < 32 → Display.cell t.disp cx cy =
        (Display.cell s.disp cx cy ^^ spriteBit s x0 y0 n.toNat cx cy)) ∧
      ((t.reg vf = 1 ∧ ∃ cx cy, cx < 64 ∧ cy < 32 ∧ spriteBit s x0 y0 n.toNat cx cy = true ∧
          Display.cell s.disp cx cy = true) ∨
        (t.reg vf = 0 ∧ ∀ cx cy, cx < 64 → cy < 32 → spriteBit s x0 y0 n.toNat cx cy = true →
          Display.cell s.disp cx cy = false)) ∧
      t.pc = s.pc + 2 ∧ t.i = s.i ∧ KeepsRegsBut [vf] s t ∧ KeepsMemory s t ∧ KeepsStack s t ∧
      KeepsTimers s t ∧ KeepsRest s t

/-- 43_display.md section 2: every one of the `n` bytes is read, whether or not its row is visible
(the spec's D11, log 23), so a sprite that passes the end of memory raises at the first address out of
range. -/
def Obligations.DrawPastTheEndOfMemoryHalts : Prop :=
  ∀ (x y n : Nibble) (s : State), n ≠ 0 → 4096 < s.i.toNat + n.toNat →
    ∃ t, exec (.drw x y n) s = .next t ∧ t.halted = true ∧
      t.fault = some (.memOutOfBounds (max s.i.toNat 4096) .read)

/-- 43_display.md section 2: drawing the same sprite twice restores the buffer, and the second draw
reports a collision exactly when the first one lit a cell, which is so for every sprite with a visible
set bit where its cells had been off (the remark of R171 read with the closed form, log 32). -/
def Obligations.DrawingTwiceRestoresTheBuffer : Prop :=
  ∀ (x y n : Nibble) (s t u : State), x ≠ 15 → y ≠ 15 → (n = 0 ∨ s.i.toNat + n.toNat ≤ 4096) →
    exec (.drw x y n) s = .next t → exec (.drw x y n) t = .next u →
    KeepsDisplayInGrid s u ∧
      (u.reg vf = 1 ↔ ∃ cx cy, cx < 64 ∧ cy < 32 ∧
        spriteBit s ((s.reg x).toNat % 64) ((s.reg y).toNat % 32) n.toNat cx cy = true ∧
        Display.cell s.disp cx cy = false)

/-! ### Keypad and timers -/

/-- 44_input_timers.md section 2: `SKP` and `SKNP` on a key the latch has. -/
def Obligations.KeySkipsTestTheLatch : Prop :=
  ∀ (x : Nibble) (s : State), (s.reg x).toNat < 16 →
    CompletesAsSkip (.skp x) s (s.keyDown (s.reg x).toNat = true) ∧
    CompletesAsSkip (.sknp x) s (s.keyDown (s.reg x).toNat = false)

/-- 44_input_timers.md section 1: the whole byte is the index, and 16 or more raises `KeyIndexRange`
with it (the spec's own sixth cause, D12, log 17). -/
def Obligations.KeySkipsOnAbsentKeyHalt : Prop :=
  ∀ (x : Nibble) (s : State), 16 ≤ (s.reg x).toNat →
    (∃ t, exec (.skp x) s = .next t ∧ t.halted = true ∧ t.fault = some (.keyIndexRange (s.reg x)) ∧
      KeepsArchitecture s t) ∧
    (∃ t, exec (.sknp x) s = .next t ∧ t.halted = true ∧ t.fault = some (.keyIndexRange (s.reg x)) ∧
      KeepsArchitecture s t)

/-- 44_input_timers.md section 3: with no key down `LD Vx,K` changes nothing, `pc` included, so it
repeats; else it stores the index of some pressed key, whichever the open `KEY_PICK` picks (log 5). -/
def Obligations.KeyWaitStoresAPressedKey : Prop :=
  ∀ (x : Nibble) (s : State),
    ((∀ k, k < 16 → s.keyDown k = false) → ∃ t, exec (.ldVxK x) s = .next t ∧ t.pc = s.pc ∧
      t.i = s.i ∧ KeepsRegsBut [] s t ∧ KeepsOutsideRegs s t) ∧
    (∀ k, k < 16 → s.keyDown k = true →
      CompletesInRegs (.ldVxK x) s [x] (fun t =>
        (t.reg x).toNat < 16 ∧ s.keyDown (t.reg x).toNat = true))

/-- 44_input_timers.md section 4: the three timer moves copy one byte; the value read is the one
before this cycle's gate. -/
def Obligations.TimerMovesCopyOneByte : Prop :=
  ∀ (x : Nibble) (s : State),
    CompletesInRegs (.ldVxDT x) s [x] (fun t => t.reg x = s.dt) ∧
    (∃ t, exec (.ldDTVx x) s = .next t ∧ t.dt = s.reg x ∧ t.st = s.st ∧ t.pc = s.pc + 2 ∧
      t.i = s.i ∧ KeepsRegsBut [] s t ∧ KeepsMemory s t ∧ KeepsDisplay s t ∧ KeepsStack s t ∧
      KeepsRest s t) ∧
    (∃ t, exec (.ldSTVx x) s = .next t ∧ t.st = s.reg x ∧ t.dt = s.dt ∧ t.pc = s.pc + 2 ∧
      t.i = s.i ∧ KeepsRegsBut [] s t ∧ KeepsMemory s t ∧ KeepsDisplay s t ∧ KeepsStack s t ∧
      KeepsRest s t)

/-- 44_input_timers.md section 4: a timer written in a gate cycle is decremented once before the cycle
ends; a value of 1 written to `st` there is published as 0. -/
def Obligations.TimerWrittenInGateCycleCountsDown : Prop :=
  ∀ (x : Nibble) (s : State), s.halted = false → s.tick = 9 →
    (s.pollInput.fetchDecode = .ok (.ldDTVx x) →
      ∃ t, step s = .next t ∧ t.dt.toNat = (s.reg x).toNat - 1 ∧ t.tick = 0) ∧
    (s.pollInput.fetchDecode = .ok (.ldSTVx x) →
      ∃ t p, step s = .next t ∧ t.st.toNat = (s.reg x).toNat - 1 ∧ t.tick = 0 ∧
        t.out = some p ∧ p.stOut = t.st)

/-! ### The font -/

/-- 20_memory.md section 1 and 42_index_memory.md section 2: whatever 80 bytes the parameter `FONT` has,
while memory is as after reset `LD F,Vx` points `I` at glyph `Vx`, five bytes, top row first. -/
def Obligations.LdFPointsAtTheGlyph : Prop :=
  ∀ (font : Config.Font) (x : Nibble) (s : State) (d r : Nat), KeepsMemory (State.resetWith font) s →
    (s.reg x).toNat = d → (hd : d < 16) → (hr : r < 5) →
    ∃ t, exec (.ldF x) s = .next t ∧ t.mem.byte (t.effAddr r) = font[5 * d + r]
end

