-- ==== Sys2Proof/Laws/State.lean ====
section
/-! SUPPORT. One lemma per field of State per update, true by rfl, so that no proof unfolds a record
update; and the reads of one register, slot and address under them. -/

namespace Sys2Proof.Machine.State

variable (s : State)

/-! ### `setReg` -/

@[simp] theorem setReg_v (x : Nibble) (b : Byte) :
    (s.setReg x b).v = s.v.set x.toNat b x.isLt := rfl
@[simp] theorem setReg_i (x : Nibble) (b : Byte) : (s.setReg x b).i = s.i := rfl
@[simp] theorem setReg_pc (x : Nibble) (b : Byte) : (s.setReg x b).pc = s.pc := rfl
@[simp] theorem setReg_sp (x : Nibble) (b : Byte) : (s.setReg x b).sp = s.sp := rfl
@[simp] theorem setReg_stack (x : Nibble) (b : Byte) : (s.setReg x b).stack = s.stack := rfl
@[simp] theorem setReg_dt (x : Nibble) (b : Byte) : (s.setReg x b).dt = s.dt := rfl
@[simp] theorem setReg_st (x : Nibble) (b : Byte) : (s.setReg x b).st = s.st := rfl
@[simp] theorem setReg_tick (x : Nibble) (b : Byte) : (s.setReg x b).tick = s.tick := rfl
@[simp] theorem setReg_mem (x : Nibble) (b : Byte) : (s.setReg x b).mem = s.mem := rfl
@[simp] theorem setReg_disp (x : Nibble) (b : Byte) : (s.setReg x b).disp = s.disp := rfl
@[simp] theorem setReg_key (x : Nibble) (b : Byte) : (s.setReg x b).key = s.key := rfl
@[simp] theorem setReg_halted (x : Nibble) (b : Byte) : (s.setReg x b).halted = s.halted := rfl
@[simp] theorem setReg_fault (x : Nibble) (b : Byte) : (s.setReg x b).fault = s.fault := rfl
@[simp] theorem setReg_out (x : Nibble) (b : Byte) : (s.setReg x b).out = s.out := rfl
@[simp] theorem setReg_rand (x : Nibble) (b : Byte) : (s.setReg x b).rand = s.rand := rfl
@[simp] theorem setReg_inputs (x : Nibble) (b : Byte) : (s.setReg x b).inputs = s.inputs := rfl
@[simp] theorem setReg_cycle (x : Nibble) (b : Byte) : (s.setReg x b).cycle = s.cycle := rfl
@[simp] theorem setReg_loaded (x : Nibble) (b : Byte) : (s.setReg x b).loaded = s.loaded := rfl

/-! ### `setI` -/

@[simp] theorem setI_v (w : Word) : (s.setI w).v = s.v := rfl
@[simp] theorem setI_i (w : Word) : (s.setI w).i = w := rfl
@[simp] theorem setI_pc (w : Word) : (s.setI w).pc = s.pc := rfl
@[simp] theorem setI_sp (w : Word) : (s.setI w).sp = s.sp := rfl
@[simp] theorem setI_stack (w : Word) : (s.setI w).stack = s.stack := rfl
@[simp] theorem setI_dt (w : Word) : (s.setI w).dt = s.dt := rfl
@[simp] theorem setI_st (w : Word) : (s.setI w).st = s.st := rfl
@[simp] theorem setI_tick (w : Word) : (s.setI w).tick = s.tick := rfl
@[simp] theorem setI_mem (w : Word) : (s.setI w).mem = s.mem := rfl
@[simp] theorem setI_disp (w : Word) : (s.setI w).disp = s.disp := rfl
@[simp] theorem setI_key (w : Word) : (s.setI w).key = s.key := rfl
@[simp] theorem setI_halted (w : Word) : (s.setI w).halted = s.halted := rfl
@[simp] theorem setI_fault (w : Word) : (s.setI w).fault = s.fault := rfl
@[simp] theorem setI_out (w : Word) : (s.setI w).out = s.out := rfl
@[simp] theorem setI_rand (w : Word) : (s.setI w).rand = s.rand := rfl
@[simp] theorem setI_inputs (w : Word) : (s.setI w).inputs = s.inputs := rfl
@[simp] theorem setI_cycle (w : Word) : (s.setI w).cycle = s.cycle := rfl
@[simp] theorem setI_loaded (w : Word) : (s.setI w).loaded = s.loaded := rfl

/-! ### `advance` -/

@[simp] theorem advance_v : (s.advance).v = s.v := rfl
@[simp] theorem advance_i : (s.advance).i = s.i := rfl
@[simp] theorem advance_pc : (s.advance).pc = s.pc + 2 := rfl
@[simp] theorem advance_sp : (s.advance).sp = s.sp := rfl
@[simp] theorem advance_stack : (s.advance).stack = s.stack := rfl
@[simp] theorem advance_dt : (s.advance).dt = s.dt := rfl
@[simp] theorem advance_st : (s.advance).st = s.st := rfl
@[simp] theorem advance_tick : (s.advance).tick = s.tick := rfl
@[simp] theorem advance_mem : (s.advance).mem = s.mem := rfl
@[simp] theorem advance_disp : (s.advance).disp = s.disp := rfl
@[simp] theorem advance_key : (s.advance).key = s.key := rfl
@[simp] theorem advance_halted : (s.advance).halted = s.halted := rfl
@[simp] theorem advance_fault : (s.advance).fault = s.fault := rfl
@[simp] theorem advance_out : (s.advance).out = s.out := rfl
@[simp] theorem advance_rand : (s.advance).rand = s.rand := rfl
@[simp] theorem advance_inputs : (s.advance).inputs = s.inputs := rfl
@[simp] theorem advance_cycle : (s.advance).cycle = s.cycle := rfl
@[simp] theorem advance_loaded : (s.advance).loaded = s.loaded := rfl

/-! ### `jumpTo` -/

@[simp] theorem jumpTo_v (a : Word) : (s.jumpTo a).v = s.v := rfl
@[simp] theorem jumpTo_i (a : Word) : (s.jumpTo a).i = s.i := rfl
@[simp] theorem jumpTo_pc (a : Word) : (s.jumpTo a).pc = a := rfl
@[simp] theorem jumpTo_sp (a : Word) : (s.jumpTo a).sp = s.sp := rfl
@[simp] theorem jumpTo_stack (a : Word) : (s.jumpTo a).stack = s.stack := rfl
@[simp] theorem jumpTo_dt (a : Word) : (s.jumpTo a).dt = s.dt := rfl
@[simp] theorem jumpTo_st (a : Word) : (s.jumpTo a).st = s.st := rfl
@[simp] theorem jumpTo_tick (a : Word) : (s.jumpTo a).tick = s.tick := rfl
@[simp] theorem jumpTo_mem (a : Word) : (s.jumpTo a).mem = s.mem := rfl
@[simp] theorem jumpTo_disp (a : Word) : (s.jumpTo a).disp = s.disp := rfl
@[simp] theorem jumpTo_key (a : Word) : (s.jumpTo a).key = s.key := rfl
@[simp] theorem jumpTo_halted (a : Word) : (s.jumpTo a).halted = s.halted := rfl
@[simp] theorem jumpTo_fault (a : Word) : (s.jumpTo a).fault = s.fault := rfl
@[simp] theorem jumpTo_out (a : Word) : (s.jumpTo a).out = s.out := rfl
@[simp] theorem jumpTo_rand (a : Word) : (s.jumpTo a).rand = s.rand := rfl
@[simp] theorem jumpTo_inputs (a : Word) : (s.jumpTo a).inputs = s.inputs := rfl
@[simp] theorem jumpTo_cycle (a : Word) : (s.jumpTo a).cycle = s.cycle := rfl
@[simp] theorem jumpTo_loaded (a : Word) : (s.jumpTo a).loaded = s.loaded := rfl

/-! ### `skipIf` -/

@[simp] theorem skipIf_v (c : Bool) : (s.skipIf c).v = s.v := rfl
@[simp] theorem skipIf_i (c : Bool) : (s.skipIf c).i = s.i := rfl
@[simp] theorem skipIf_pc (c : Bool) : (s.skipIf c).pc = s.pc + (if c then 4 else 2) := rfl
@[simp] theorem skipIf_sp (c : Bool) : (s.skipIf c).sp = s.sp := rfl
@[simp] theorem skipIf_stack (c : Bool) : (s.skipIf c).stack = s.stack := rfl
@[simp] theorem skipIf_dt (c : Bool) : (s.skipIf c).dt = s.dt := rfl
@[simp] theorem skipIf_st (c : Bool) : (s.skipIf c).st = s.st := rfl
@[simp] theorem skipIf_tick (c : Bool) : (s.skipIf c).tick = s.tick := rfl
@[simp] theorem skipIf_mem (c : Bool) : (s.skipIf c).mem = s.mem := rfl
@[simp] theorem skipIf_disp (c : Bool) : (s.skipIf c).disp = s.disp := rfl
@[simp] theorem skipIf_key (c : Bool) : (s.skipIf c).key = s.key := rfl
@[simp] theorem skipIf_halted (c : Bool) : (s.skipIf c).halted = s.halted := rfl
@[simp] theorem skipIf_fault (c : Bool) : (s.skipIf c).fault = s.fault := rfl
@[simp] theorem skipIf_out (c : Bool) : (s.skipIf c).out = s.out := rfl
@[simp] theorem skipIf_rand (c : Bool) : (s.skipIf c).rand = s.rand := rfl
@[simp] theorem skipIf_inputs (c : Bool) : (s.skipIf c).inputs = s.inputs := rfl
@[simp] theorem skipIf_cycle (c : Bool) : (s.skipIf c).cycle = s.cycle := rfl
@[simp] theorem skipIf_loaded (c : Bool) : (s.skipIf c).loaded = s.loaded := rfl

/-! ### `takeFatal` -/

@[simp] theorem takeFatal_v (c : Cause) : (s.takeFatal c).v = s.v := rfl
@[simp] theorem takeFatal_i (c : Cause) : (s.takeFatal c).i = s.i := rfl
@[simp] theorem takeFatal_pc (c : Cause) : (s.takeFatal c).pc = s.pc := rfl
@[simp] theorem takeFatal_sp (c : Cause) : (s.takeFatal c).sp = s.sp := rfl
@[simp] theorem takeFatal_stack (c : Cause) : (s.takeFatal c).stack = s.stack := rfl
@[simp] theorem takeFatal_dt (c : Cause) : (s.takeFatal c).dt = s.dt := rfl
@[simp] theorem takeFatal_st (c : Cause) : (s.takeFatal c).st = s.st := rfl
@[simp] theorem takeFatal_tick (c : Cause) : (s.takeFatal c).tick = s.tick := rfl
@[simp] theorem takeFatal_mem (c : Cause) : (s.takeFatal c).mem = s.mem := rfl
@[simp] theorem takeFatal_disp (c : Cause) : (s.takeFatal c).disp = s.disp := rfl
@[simp] theorem takeFatal_key (c : Cause) : (s.takeFatal c).key = s.key := rfl
@[simp] theorem takeFatal_halted (c : Cause) : (s.takeFatal c).halted = true := rfl
@[simp] theorem takeFatal_fault (c : Cause) : (s.takeFatal c).fault = some c := rfl
@[simp] theorem takeFatal_out (c : Cause) : (s.takeFatal c).out = s.out := rfl
@[simp] theorem takeFatal_rand (c : Cause) : (s.takeFatal c).rand = s.rand := rfl
@[simp] theorem takeFatal_inputs (c : Cause) : (s.takeFatal c).inputs = s.inputs := rfl
@[simp] theorem takeFatal_cycle (c : Cause) : (s.takeFatal c).cycle = s.cycle := rfl
@[simp] theorem takeFatal_loaded (c : Cause) : (s.takeFatal c).loaded = s.loaded := rfl

/-! ### `pop` -/

@[simp] theorem pop_v : (s.pop).v = s.v := rfl
@[simp] theorem pop_i : (s.pop).i = s.i := rfl
@[simp] theorem pop_pc : (s.pop).pc = s.pc := rfl
@[simp] theorem pop_sp : (s.pop).sp = s.sp - 1 := rfl
@[simp] theorem pop_stack : (s.pop).stack = s.stack := rfl
@[simp] theorem pop_dt : (s.pop).dt = s.dt := rfl
@[simp] theorem pop_st : (s.pop).st = s.st := rfl
@[simp] theorem pop_tick : (s.pop).tick = s.tick := rfl
@[simp] theorem pop_mem : (s.pop).mem = s.mem := rfl
@[simp] theorem pop_disp : (s.pop).disp = s.disp := rfl
@[simp] theorem pop_key : (s.pop).key = s.key := rfl
@[simp] theorem pop_halted : (s.pop).halted = s.halted := rfl
@[simp] theorem pop_fault : (s.pop).fault = s.fault := rfl
@[simp] theorem pop_out : (s.pop).out = s.out := rfl
@[simp] theorem pop_rand : (s.pop).rand = s.rand := rfl
@[simp] theorem pop_inputs : (s.pop).inputs = s.inputs := rfl
@[simp] theorem pop_cycle : (s.pop).cycle = s.cycle := rfl
@[simp] theorem pop_loaded : (s.pop).loaded = s.loaded := rfl

/-! ### `placeWord` -/

@[simp] theorem placeWord_v (op : Word) : (s.placeWord op).v = s.v := rfl
@[simp] theorem placeWord_i (op : Word) : (s.placeWord op).i = s.i := rfl
@[simp] theorem placeWord_pc (op : Word) : (s.placeWord op).pc = s.pc := rfl
@[simp] theorem placeWord_sp (op : Word) : (s.placeWord op).sp = s.sp := rfl
@[simp] theorem placeWord_stack (op : Word) : (s.placeWord op).stack = s.stack := rfl
@[simp] theorem placeWord_dt (op : Word) : (s.placeWord op).dt = s.dt := rfl
@[simp] theorem placeWord_st (op : Word) : (s.placeWord op).st = s.st := rfl
@[simp] theorem placeWord_tick (op : Word) : (s.placeWord op).tick = s.tick := rfl
@[simp] theorem placeWord_mem (op : Word) :
    (s.placeWord op).mem = (s.mem.set s.pc.toNat (highByte op)).set (s.pc.toNat + 1) (lowByte op) := rfl
@[simp] theorem placeWord_disp (op : Word) : (s.placeWord op).disp = s.disp := rfl
@[simp] theorem placeWord_key (op : Word) : (s.placeWord op).key = s.key := rfl
@[simp] theorem placeWord_halted (op : Word) : (s.placeWord op).halted = s.halted := rfl
@[simp] theorem placeWord_fault (op : Word) : (s.placeWord op).fault = s.fault := rfl
@[simp] theorem placeWord_out (op : Word) : (s.placeWord op).out = s.out := rfl
@[simp] theorem placeWord_rand (op : Word) : (s.placeWord op).rand = s.rand := rfl
@[simp] theorem placeWord_inputs (op : Word) : (s.placeWord op).inputs = s.inputs := rfl
@[simp] theorem placeWord_cycle (op : Word) : (s.placeWord op).cycle = s.cycle := rfl
@[simp] theorem placeWord_loaded (op : Word) : (s.placeWord op).loaded = s.loaded := rfl

/-! ### `publish` -/

@[simp] theorem publish_v : (s.publish).v = s.v := rfl
@[simp] theorem publish_i : (s.publish).i = s.i := rfl
@[simp] theorem publish_pc : (s.publish).pc = s.pc := rfl
@[simp] theorem publish_sp : (s.publish).sp = s.sp := rfl
@[simp] theorem publish_stack : (s.publish).stack = s.stack := rfl
@[simp] theorem publish_dt : (s.publish).dt = s.dt := rfl
@[simp] theorem publish_st : (s.publish).st = s.st := rfl
@[simp] theorem publish_tick : (s.publish).tick = s.tick := rfl
@[simp] theorem publish_mem : (s.publish).mem = s.mem := rfl
@[simp] theorem publish_disp : (s.publish).disp = s.disp := rfl
@[simp] theorem publish_key : (s.publish).key = s.key := rfl
@[simp] theorem publish_halted : (s.publish).halted = s.halted := rfl
@[simp] theorem publish_fault : (s.publish).fault = s.fault := rfl
@[simp] theorem publish_out : (s.publish).out = some { fb := s.disp, stOut := s.st } := rfl
@[simp] theorem publish_rand : (s.publish).rand = s.rand := rfl
@[simp] theorem publish_inputs : (s.publish).inputs = s.inputs := rfl
@[simp] theorem publish_cycle : (s.publish).cycle = s.cycle := rfl
@[simp] theorem publish_loaded : (s.publish).loaded = s.loaded := rfl

/-! ### `pollInput` -/

@[simp] theorem pollInput_v : (s.pollInput).v = s.v := rfl
@[simp] theorem pollInput_i : (s.pollInput).i = s.i := rfl
@[simp] theorem pollInput_pc : (s.pollInput).pc = s.pc := rfl
@[simp] theorem pollInput_sp : (s.pollInput).sp = s.sp := rfl
@[simp] theorem pollInput_stack : (s.pollInput).stack = s.stack := rfl
@[simp] theorem pollInput_dt : (s.pollInput).dt = s.dt := rfl
@[simp] theorem pollInput_st : (s.pollInput).st = s.st := rfl
@[simp] theorem pollInput_tick : (s.pollInput).tick = s.tick := rfl
@[simp] theorem pollInput_mem : (s.pollInput).mem = s.mem := rfl
@[simp] theorem pollInput_disp : (s.pollInput).disp = s.disp := rfl
@[simp] theorem pollInput_key :
    (s.pollInput).key = s.cycleInput.events.foldl applyKeyEvent s.key := rfl
@[simp] theorem pollInput_halted : (s.pollInput).halted = s.halted := rfl
@[simp] theorem pollInput_fault : (s.pollInput).fault = s.fault := rfl
@[simp] theorem pollInput_out : (s.pollInput).out = s.out := rfl
@[simp] theorem pollInput_rand : (s.pollInput).rand = s.cycleInput.rand := rfl
@[simp] theorem pollInput_inputs : (s.pollInput).inputs = s.inputs.tail := rfl
@[simp] theorem pollInput_cycle : (s.pollInput).cycle = s.cycle + 1 := rfl
@[simp] theorem pollInput_loaded : (s.pollInput).loaded = s.loaded := rfl

/-! ### `timerGate`: the fields the gate leaves, then the three it writes -/

@[simp] theorem timerGate_v : s.timerGate.v = s.v := by unfold timerGate; split <;> rfl
@[simp] theorem timerGate_i : s.timerGate.i = s.i := by unfold timerGate; split <;> rfl
@[simp] theorem timerGate_pc : s.timerGate.pc = s.pc := by unfold timerGate; split <;> rfl
@[simp] theorem timerGate_sp : s.timerGate.sp = s.sp := by unfold timerGate; split <;> rfl
@[simp] theorem timerGate_stack : s.timerGate.stack = s.stack := by unfold timerGate; split <;> rfl
@[simp] theorem timerGate_mem : s.timerGate.mem = s.mem := by unfold timerGate; split <;> rfl
@[simp] theorem timerGate_disp : s.timerGate.disp = s.disp := by unfold timerGate; split <;> rfl
@[simp] theorem timerGate_key : s.timerGate.key = s.key := by unfold timerGate; split <;> rfl
@[simp] theorem timerGate_halted : s.timerGate.halted = s.halted := by unfold timerGate; split <;> rfl
@[simp] theorem timerGate_fault : s.timerGate.fault = s.fault := by unfold timerGate; split <;> rfl
@[simp] theorem timerGate_out : s.timerGate.out = s.out := by unfold timerGate; split <;> rfl
@[simp] theorem timerGate_rand : s.timerGate.rand = s.rand := by unfold timerGate; split <;> rfl
@[simp] theorem timerGate_inputs : s.timerGate.inputs = s.inputs := by unfold timerGate; split <;> rfl
@[simp] theorem timerGate_cycle : s.timerGate.cycle = s.cycle := by unfold timerGate; split <;> rfl
@[simp] theorem timerGate_loaded : s.timerGate.loaded = s.loaded := by unfold timerGate; split <;> rfl

theorem timerGate_tick :
    s.timerGate.tick = if s.tick + 1 = 10 then 0 else s.tick + 1 := by
  unfold timerGate; split <;> simp_all

theorem timerGate_dt : s.timerGate.dt = if s.tick + 1 = 10 then countDown s.dt else s.dt := by
  unfold timerGate; split <;> simp_all

theorem timerGate_st : s.timerGate.st = if s.tick + 1 = 10 then countDown s.st else s.st := by
  unfold timerGate; split <;> simp_all

@[simp] theorem pace_eq : s.pace = s := rfl

/-! ### Reading one register -/

theorem reg_eq_of_v {s t : State} (h : t.v = s.v) (r : Nibble) : t.reg r = s.reg r := by
  simp [reg, h]

@[simp] theorem reg_setReg_same (x : Nibble) (b : Byte) : (s.setReg x b).reg x = b := by
  simp [reg, setReg]

theorem reg_setReg_ne {x r : Nibble} (b : Byte) (h : r ≠ x) : (s.setReg x b).reg r = s.reg r := by
  have : x.toNat ≠ r.toNat := fun e => h (BitVec.eq_of_toNat_eq e.symm)
  simp [reg, setReg, this]

theorem reg_setReg (x r : Nibble) (b : Byte) :
    (s.setReg x b).reg r = if r = x then b else s.reg r := by
  split
  · subst r; simp
  · exact s.reg_setReg_ne b ‹_›

@[simp] theorem reg_setI (w : Word) (r : Nibble) : (s.setI w).reg r = s.reg r := rfl
@[simp] theorem reg_advance (r : Nibble) : (s.advance).reg r = s.reg r := rfl
@[simp] theorem reg_jumpTo (a : Word) (r : Nibble) : (s.jumpTo a).reg r = s.reg r := rfl
@[simp] theorem reg_skipIf (c : Bool) (r : Nibble) : (s.skipIf c).reg r = s.reg r := rfl
@[simp] theorem reg_takeFatal (c : Cause) (r : Nibble) : (s.takeFatal c).reg r = s.reg r := rfl
@[simp] theorem reg_pop (r : Nibble) : (s.pop).reg r = s.reg r := rfl
@[simp] theorem reg_placeWord (op : Word) (r : Nibble) : (s.placeWord op).reg r = s.reg r := rfl
@[simp] theorem reg_publish (r : Nibble) : (s.publish).reg r = s.reg r := rfl
@[simp] theorem reg_pollInput (r : Nibble) : (s.pollInput).reg r = s.reg r := rfl
@[simp] theorem reg_timerGate (r : Nibble) : s.timerGate.reg r = s.reg r := reg_eq_of_v (by simp) r
@[simp] theorem reg_withMem (m : Memory) (r : Nibble) : State.reg { s with mem := m } r = s.reg r := rfl
@[simp] theorem reg_withDisp (d : Display) (r : Nibble) : State.reg { s with disp := d } r = s.reg r := rfl

/-! ### Reading one slot, one effective address -/

@[simp] theorem slot_setReg (x : Nibble) (b : Byte) (k : Nat) : (s.setReg x b).slot k = s.slot k := rfl
@[simp] theorem slot_setI (w : Word) (k : Nat) : (s.setI w).slot k = s.slot k := rfl
@[simp] theorem slot_advance (k : Nat) : (s.advance).slot k = s.slot k := rfl
@[simp] theorem slot_jumpTo (a : Word) (k : Nat) : (s.jumpTo a).slot k = s.slot k := rfl
@[simp] theorem slot_skipIf (c : Bool) (k : Nat) : (s.skipIf c).slot k = s.slot k := rfl
@[simp] theorem slot_takeFatal (c : Cause) (k : Nat) : (s.takeFatal c).slot k = s.slot k := rfl
@[simp] theorem slot_pop (k : Nat) : (s.pop).slot k = s.slot k := rfl
@[simp] theorem slot_placeWord (op : Word) (k : Nat) : (s.placeWord op).slot k = s.slot k := rfl
@[simp] theorem slot_publish (k : Nat) : (s.publish).slot k = s.slot k := rfl
@[simp] theorem slot_pollInput (k : Nat) : (s.pollInput).slot k = s.slot k := rfl
@[simp] theorem slot_timerGate (k : Nat) : s.timerGate.slot k = s.slot k := by simp [slot]

@[simp] theorem effAddr_setReg (x : Nibble) (b : Byte) (k : Nat) :
    (s.setReg x b).effAddr k = s.effAddr k := rfl
@[simp] theorem effAddr_withMem (m : Memory) (k : Nat) :
    State.effAddr { s with mem := m } k = s.effAddr k := rfl
@[simp] theorem effAddr_withDisp (d : Display) (k : Nat) :
    State.effAddr { s with disp := d } k = s.effAddr k := rfl

/-! ### `setFlagThenReg`: `VF`, then `V[x]` (R140) -/

@[simp] theorem setFlagThenReg_same (x : Nibble) (f b : Byte) : (s.setFlagThenReg x f b).reg x = b := by
  simp [setFlagThenReg]

theorem setFlagThenReg_vf {x : Nibble} (f b : Byte) (h : x ≠ vf) :
    (s.setFlagThenReg x f b).reg vf = f := by
  rw [setFlagThenReg, reg_setReg_ne _ _ h.symm, reg_setReg_same]

/-- As `setFlagThenReg_vf`, in the form `simp` brings `vf` to. -/
theorem setFlagThenReg_15 {x : Nibble} (f b : Byte) (h : x ≠ 15#4) :
    (s.setFlagThenReg x f b).reg 15#4 = f := setFlagThenReg_vf s f b h

theorem setFlagThenReg_ne {x r : Nibble} (f b : Byte) (hx : r ≠ x) (hf : r ≠ vf) :
    (s.setFlagThenReg x f b).reg r = s.reg r := by
  rw [setFlagThenReg, reg_setReg_ne _ _ hx, reg_setReg_ne _ _ hf]

@[simp] theorem setFlagThenReg_i (x : Nibble) (f b : Byte) :
    (s.setFlagThenReg x f b).i = s.i := rfl
@[simp] theorem setFlagThenReg_pc (x : Nibble) (f b : Byte) :
    (s.setFlagThenReg x f b).pc = s.pc := rfl
@[simp] theorem setFlagThenReg_sp (x : Nibble) (f b : Byte) :
    (s.setFlagThenReg x f b).sp = s.sp := rfl
@[simp] theorem setFlagThenReg_stack (x : Nibble) (f b : Byte) :
    (s.setFlagThenReg x f b).stack = s.stack := rfl
@[simp] theorem setFlagThenReg_dt (x : Nibble) (f b : Byte) :
    (s.setFlagThenReg x f b).dt = s.dt := rfl
@[simp] theorem setFlagThenReg_st (x : Nibble) (f b : Byte) :
    (s.setFlagThenReg x f b).st = s.st := rfl
@[simp] theorem setFlagThenReg_tick (x : Nibble) (f b : Byte) :
    (s.setFlagThenReg x f b).tick = s.tick := rfl
@[simp] theorem setFlagThenReg_mem (x : Nibble) (f b : Byte) :
    (s.setFlagThenReg x f b).mem = s.mem := rfl
@[simp] theorem setFlagThenReg_disp (x : Nibble) (f b : Byte) :
    (s.setFlagThenReg x f b).disp = s.disp := rfl
@[simp] theorem setFlagThenReg_key (x : Nibble) (f b : Byte) :
    (s.setFlagThenReg x f b).key = s.key := rfl
@[simp] theorem setFlagThenReg_halted (x : Nibble) (f b : Byte) :
    (s.setFlagThenReg x f b).halted = s.halted := rfl
@[simp] theorem setFlagThenReg_fault (x : Nibble) (f b : Byte) :
    (s.setFlagThenReg x f b).fault = s.fault := rfl
@[simp] theorem setFlagThenReg_out (x : Nibble) (f b : Byte) :
    (s.setFlagThenReg x f b).out = s.out := rfl
@[simp] theorem setFlagThenReg_rand (x : Nibble) (f b : Byte) :
    (s.setFlagThenReg x f b).rand = s.rand := rfl
@[simp] theorem setFlagThenReg_inputs (x : Nibble) (f b : Byte) :
    (s.setFlagThenReg x f b).inputs = s.inputs := rfl
@[simp] theorem setFlagThenReg_cycle (x : Nibble) (f b : Byte) :
    (s.setFlagThenReg x f b).cycle = s.cycle := rfl
@[simp] theorem setFlagThenReg_loaded (x : Nibble) (f b : Byte) :
    (s.setFlagThenReg x f b).loaded = s.loaded := rfl
@[simp] theorem slot_setFlagThenReg (x : Nibble) (f b : Byte) (k : Nat) :
    (s.setFlagThenReg x f b).slot k = s.slot k := rfl

/-! ### Reset (R33) -/

@[simp] theorem resetWith_v (font : Config.Font) : (resetWith font).v = reset.v := rfl
@[simp] theorem resetWith_i (font : Config.Font) : (resetWith font).i = reset.i := rfl
@[simp] theorem resetWith_pc (font : Config.Font) : (resetWith font).pc = reset.pc := rfl
@[simp] theorem resetWith_sp (font : Config.Font) : (resetWith font).sp = reset.sp := rfl
@[simp] theorem resetWith_stack (font : Config.Font) : (resetWith font).stack = reset.stack := rfl
@[simp] theorem resetWith_dt (font : Config.Font) : (resetWith font).dt = reset.dt := rfl
@[simp] theorem resetWith_st (font : Config.Font) : (resetWith font).st = reset.st := rfl
@[simp] theorem resetWith_tick (font : Config.Font) : (resetWith font).tick = reset.tick := rfl
@[simp] theorem resetWith_disp (font : Config.Font) : (resetWith font).disp = reset.disp := rfl
@[simp] theorem resetWith_key (font : Config.Font) : (resetWith font).key = reset.key := rfl
@[simp] theorem resetWith_halted (font : Config.Font) : (resetWith font).halted = reset.halted := rfl
@[simp] theorem resetWith_fault (font : Config.Font) : (resetWith font).fault = reset.fault := rfl
@[simp] theorem resetWith_out (font : Config.Font) : (resetWith font).out = reset.out := rfl
@[simp] theorem resetWith_rand (font : Config.Font) : (resetWith font).rand = reset.rand := rfl
@[simp] theorem resetWith_inputs (font : Config.Font) : (resetWith font).inputs = reset.inputs := rfl
@[simp] theorem resetWith_cycle (font : Config.Font) : (resetWith font).cycle = reset.cycle := rfl
@[simp] theorem resetWith_loaded (font : Config.Font) : (resetWith font).loaded = reset.loaded := rfl
@[simp] theorem resetWith_mem (font : Config.Font) :
    (resetWith font).mem = reset.mem.place 0 font.toList := rfl
@[simp] theorem reg_resetWith (font : Config.Font) (r : Nibble) :
    (resetWith font).reg r = reset.reg r := rfl
@[simp] theorem slot_resetWith (font : Config.Font) (k : Nat) :
    (resetWith font).slot k = reset.slot k := rfl
@[simp] theorem reset_reg (r : Nibble) : reset.reg r = 0 := by simp [reg, reset]

theorem reset_slot {k : Nat} (h : k < 16) : reset.slot k = 0 := by simp [slot, reset, Vector.getD, h]

end Sys2Proof.Machine.State
end

