-- ==== Sys2Proof/Laws/Memory.lean ====
section
/-! SUPPORT. Memory: a read after a write gives the value written, a write leaves every other byte
alone (R65, R69, R75), and every operation keeps the canonical form. -/

namespace Sys2Proof.Machine.Memory

/-! ### Reading after a change -/

theorem byte_erase (m : Memory) (a a' : Nat) :
    (m.erase a).byte a' = if a' = a then resetByte a' else m.byte a' := by
  induction m with
  | nil => simp [erase, byte]
  | cons e rest ih =>
    obtain ⟨c, b⟩ := e
    by_cases hc : c = a
    · subst c
      rw [erase, if_pos rfl, ih]
      by_cases ha : a' = a
      · simp [ha]
      · simp [byte, ha, Ne.symm ha]
    · by_cases ha : a' = a
      · subst a'; simp [erase, hc, byte, ih]
      · simp [erase, hc, byte, ih, ha]

theorem byte_insert (m : Memory) (a : Nat) (b : Byte) (a' : Nat) (hm : ∀ e ∈ m, e.1 ≠ a) :
    (m.insert a b).byte a' = if a' = a then b else m.byte a' := by
  induction m with
  | nil => simp [insert, byte, eq_comm (a := a)]
  | cons e rest ih =>
    obtain ⟨c, d⟩ := e
    have hc : c ≠ a := hm (c, d) (by simp)
    have hrest := ih fun e he => hm e (by simp [he])
    by_cases hlt : a < c
    · by_cases h : a' = a
      · subst a'; simp [insert, hlt, byte]
      · simp [insert, hlt, byte, h, Ne.symm h]
    · by_cases h : a' = a
      · subst a'; simp [insert, hlt, byte, hc, hrest]
      · simp [insert, hlt, byte, hrest, h]

theorem addr_ne_of_mem_erase (m : Memory) (a : Nat) : ∀ e ∈ m.erase a, e.1 ≠ a := by
  induction m with
  | nil => simp [erase]
  | cons e rest ih =>
    obtain ⟨c, b⟩ := e
    by_cases hc : c = a
    · simpa [erase, hc] using ih
    · simpa [erase, hc] using ih

/-- The law of memory: one byte changes, to the value written (R65). -/
theorem byte_set (m : Memory) (a : Nat) (b : Byte) (a' : Nat) :
    (m.set a b).byte a' = if a' = a then b else m.byte a' := by
  unfold set
  split
  · rename_i hb
    rw [byte_erase]
    split
    · subst a'; exact hb.symm
    · rfl
  · rw [byte_insert _ _ _ _ (addr_ne_of_mem_erase m a), byte_erase]
    split <;> rfl

@[simp] theorem byte_set_same (m : Memory) (a : Nat) (b : Byte) : (m.set a b).byte a = b := by
  simp [byte_set]

theorem byte_set_ne (m : Memory) {a a' : Nat} (b : Byte) (h : a' ≠ a) :
    (m.set a b).byte a' = m.byte a' := by simp [byte_set, h]

@[simp] theorem byte_reset (a : Nat) : State.reset.mem.byte a = resetByte a := rfl

/-- A run of bytes placed in ascending order (R74). -/
theorem byte_place (m : Memory) (a : Nat) (bytes : List Byte) (a' : Nat) :
    (m.place a bytes).byte a' =
      if a ≤ a' ∧ a' < a + bytes.length then bytes.getD (a' - a) 0 else m.byte a' := by
  induction bytes generalizing m a with
  | nil => simp [place, show ¬(a ≤ a' ∧ a' < a) by omega]
  | cons b rest ih =>
    rw [place, ih, byte_set, List.length_cons]
    by_cases h : a' = a
    · subst a'
      rw [if_neg (by omega), if_pos rfl, if_pos (by omega), Nat.sub_self]
      rfl
    · rw [if_neg h]
      by_cases h2 : a + 1 ≤ a' ∧ a' < a + 1 + rest.length
      · rw [if_pos h2, if_pos (by omega), show a' - a = (a' - (a + 1)) + 1 by omega]
        rfl
      · rw [if_neg h2, if_neg (by omega)]

/-! ### The canonical form -/

theorem wfFrom_mono {lo lo' : Nat} (h : lo' ≤ lo) {m : Memory} (hm : wfFrom lo m = true) :
    wfFrom lo' m = true := by
  cases m with
  | nil => rfl
  | cons e rest =>
    obtain ⟨c, b⟩ := e
    simp only [wfFrom, Bool.and_eq_true, decide_eq_true_eq] at hm ⊢
    exact ⟨⟨⟨by omega, hm.1.1.2⟩, hm.1.2⟩, hm.2⟩

theorem wfFrom_erase {lo : Nat} {m : Memory} (a : Nat) (hm : wfFrom lo m = true) :
    wfFrom lo (m.erase a) = true := by
  induction m generalizing lo with
  | nil => rfl
  | cons e rest ih =>
    obtain ⟨c, b⟩ := e
    simp only [wfFrom, Bool.and_eq_true, decide_eq_true_eq] at hm
    have hrest := ih hm.2
    by_cases hc : c = a
    · simpa [erase, hc] using wfFrom_mono (by omega) hrest
    · simpa [erase, hc, wfFrom, hrest] using hm.1

theorem wfFrom_insert {lo : Nat} {m : Memory} {a : Nat} {b : Byte} (hm : wfFrom lo m = true)
    (hne : ∀ e ∈ m, e.1 ≠ a) (hlo : lo ≤ a) (ha : a < 4096) (hb : b ≠ resetByte a) :
    wfFrom lo (m.insert a b) = true := by
  induction m generalizing lo with
  | nil => simp [insert, wfFrom, hlo, ha, hb]
  | cons e rest ih =>
    obtain ⟨c, d⟩ := e
    have hca : c ≠ a := hne (c, d) (by simp)
    simp only [wfFrom, Bool.and_eq_true, decide_eq_true_eq] at hm
    obtain ⟨⟨⟨h1, h2⟩, h3⟩, h4⟩ := hm
    by_cases hlt : a < c
    · have hc : a + 1 ≤ c := hlt
      simp only [insert, hlt, if_true, wfFrom, Bool.and_eq_true, decide_eq_true_eq]
      exact ⟨⟨⟨hlo, ha⟩, by simpa using hb⟩, ⟨⟨hc, h2⟩, h3⟩, h4⟩
    · have hrest := ih h4 (fun e he => hne e (by simp [he])) (by omega)
      simp only [insert, hlt, if_false, wfFrom, Bool.and_eq_true, decide_eq_true_eq]
      exact ⟨⟨⟨h1, h2⟩, h3⟩, hrest⟩

/-- A write inside the address space keeps the canonical form. -/
theorem wf_set {m : Memory} {a : Nat} {b : Byte} (hm : m.wf = true) (ha : a < 4096) :
    (m.set a b).wf = true := by
  unfold set wf
  split
  · exact wfFrom_erase a hm
  · exact wfFrom_insert (wfFrom_erase a hm) (addr_ne_of_mem_erase m a) (Nat.zero_le _) ha ‹_›

/-- A load that fits keeps the canonical form. -/
theorem wf_place {m : Memory} {a : Nat} {bytes : List Byte} (hm : m.wf = true)
    (ha : a + bytes.length ≤ 4096) : (m.place a bytes).wf = true := by
  induction bytes generalizing m a with
  | nil => exact hm
  | cons b rest ih =>
    simp only [List.length_cons] at ha
    exact ih (wf_set hm (by omega)) (by omega)

theorem wf_reset : State.reset.mem.wf = true := rfl

/-- An address of a canonical memory is in the space. -/
theorem addr_lt_of_wfFrom {lo : Nat} {m : Memory} (hm : wfFrom lo m = true) :
    ∀ e ∈ m, lo ≤ e.1 ∧ e.1 < 4096 ∧ e.2 ≠ resetByte e.1 := by
  induction m generalizing lo with
  | nil => simp
  | cons e rest ih =>
    obtain ⟨c, b⟩ := e
    simp only [wfFrom, Bool.and_eq_true, decide_eq_true_eq] at hm
    intro e' he'
    rcases List.mem_cons.mp he' with rfl | h
    · exact ⟨hm.1.1.1, hm.1.1.2, by simpa using hm.1.2⟩
    · obtain ⟨h1, h2, h3⟩ := ih hm.2 e' h
      exact ⟨by omega, h2, h3⟩

/-- Two canonical memories that read alike at every address are the same data. -/
theorem eq_of_byte_eq {lo : Nat} {m m' : Memory} (hm : wfFrom lo m = true) (hm' : wfFrom lo m' = true)
    (h : ∀ a, m.byte a = m'.byte a) : m = m' := by
  have below : ∀ {lo} {m : Memory}, wfFrom lo m = true → ∀ a, a < lo → m.byte a = resetByte a := by
    intro lo m hm a ha
    induction m generalizing lo with
    | nil => rfl
    | cons e rest ih =>
      obtain ⟨c, b⟩ := e
      simp only [wfFrom, Bool.and_eq_true, decide_eq_true_eq] at hm
      have : c ≠ a := by omega
      simpa [byte, this] using ih hm.2 (by omega)
  induction m generalizing lo m' with
  | nil =>
    cases m' with
    | nil => rfl
    | cons e' rest' =>
      obtain ⟨c, b⟩ := e'
      have hc := (addr_lt_of_wfFrom hm' (c, b) (by simp)).2.2
      exact absurd (by simpa [byte] using (h c).symm) hc
  | cons e rest ih =>
    obtain ⟨c, b⟩ := e
    have hce := (addr_lt_of_wfFrom hm (c, b) (by simp)).2.2
    simp only [wfFrom, Bool.and_eq_true, decide_eq_true_eq] at hm
    cases m' with
    | nil => exact absurd (by simpa [byte] using h c) hce
    | cons e' rest' =>
      obtain ⟨c', b'⟩ := e'
      have hce' := (addr_lt_of_wfFrom hm' (c', b') (by simp)).2.2
      simp only [wfFrom, Bool.and_eq_true, decide_eq_true_eq] at hm'
      have hcc : c = c' := by
        rcases Nat.lt_trichotomy c c' with hlt | heq | hgt
        · have h1 := h c
          have h2 : c' ≠ c := by omega
          have h3 := below hm'.2 c (by omega)
          simp only [byte, if_true, h2, if_false, h3] at h1
          exact absurd h1 hce
        · exact heq
        · have h1 := h c'
          have h2 : c ≠ c' := by omega
          have h3 := below hm.2 c' (by omega)
          simp only [byte, if_true, h2, if_false, h3] at h1
          exact absurd h1.symm hce'
      subst c'
      have hbb : b = b' := by simpa [byte] using h c
      subst b'
      have : rest = rest' := by
        refine ih hm.2 hm'.2 fun a => ?_
        by_cases hac : c = a
        · subst a
          rw [below hm.2 c (by omega), below hm'.2 c (by omega)]
        · simpa [byte, hac] using h a
      rw [this]

end Sys2Proof.Machine.Memory
end

