-- ==== Sys2Proof/Laws/Ops.lean ====
section
/-! SUPPORT. One lemma per shared operation that says everything it can do; callers cite it and do
not unfold the operation. -/

namespace Sys2Proof.Machine

/-! ### Reads, writes, fetch -/

theorem read_of_lt (s : State) {a : Nat} (h : a < 4096) : s.read a = some (s.mem.byte a) := by
  simp [State.read, h]

theorem read_of_ge (s : State) {a : Nat} (h : 4096 ≤ a) : s.read a = none := by
  simp [State.read, Nat.not_lt.mpr h]

theorem write_of_lt (s : State) {a : Nat} (b : Byte) (h : a < 4096) :
    s.write a b = .go { s with mem := s.mem.set a b } := by
  simp [State.write, h]

theorem write_of_ge (s : State) {a : Nat} (b : Byte) (h : 4096 ≤ a) :
    s.write a b = .raised (.memOutOfBounds a .write) s := by
  simp [State.write, Nat.not_lt.mpr h]

theorem fetchWord_of_lt (s : State) (h : s.pc.toNat < 4095) :
    s.fetchWord = some (wordOfBytes (s.mem.byte s.pc.toNat) (s.mem.byte (s.pc.toNat + 1))) := by
  simp only [State.fetchWord, Config.memSize]
  rw [if_pos (by omega)]

theorem fetchWord_of_ge (s : State) (h : 4095 ≤ s.pc.toNat) : s.fetchWord = none := by
  simp only [State.fetchWord, Config.memSize]
  rw [if_neg (by omega)]

/-! ### Return stack -/

theorem push_of_lt (s : State) (w : Word) (h : s.sp < 16) :
    s.push w = .go { s with stack := s.stack.set s.sp w h, sp := s.sp + 1 } := by
  simp [State.push, h]

theorem push_of_ge (s : State) (w : Word) (h : 16 ≤ s.sp) : s.push w = .raised .stackOverflow s := by
  simp [State.push, Nat.not_lt.mpr h]

/-- The slots after a push: the new top holds the word, the others are as before (R71). -/
theorem slot_push (s : State) (w : Word) (h : s.sp < 16) (k : Nat) :
    State.slot { s with stack := s.stack.set s.sp w h, sp := s.sp + 1 } k =
      if k = s.sp then w else s.slot k := by
  by_cases hk : k < 16
  · by_cases he : k = s.sp
    · subst k; simp [State.slot, Vector.getD, h]
    · simp [State.slot, Vector.getD, hk, he, Ne.symm he]
  · have he : k ≠ s.sp := by omega
    simp [State.slot, Vector.getD, hk, he]

/-! ### The two flow combinators -/

@[simp] theorem andThen_go (s : State) (f : State → Flow) : (Flow.go s).andThen f = f s := rfl

@[simp] theorem andThen_raised (c : Cause) (s : State) (f : State → Flow) :
    (Flow.raised c s).andThen f = .raised c s := rfl

@[simp] theorem finish_go (s : State) : (Flow.go s).finish = .next s.advance := rfl

@[simp] theorem finish_raised (c : Cause) (s : State) :
    (Flow.raised c s).finish = .next (s.takeFatal c) := rfl

/-! ### Register transfers -/

/-- `storeRegs` in range: only memory changes, byte `I + k` to `V[k]` (R164). -/
theorem storeRegs_go (n k : Nat) (s : State) (h : s.i.toNat + k + n ≤ 4096) :
    ∃ m, storeRegs n k s = .go { s with mem := m } ∧
      (∀ a, m.byte a = if s.i.toNat + k ≤ a ∧ a < s.i.toNat + k + n
        then s.reg (BitVec.ofNat 4 (a - s.i.toNat)) else s.mem.byte a) ∧
      (s.mem.wf = true → m.wf = true) := by
  induction n generalizing k s with
  | zero => exact ⟨s.mem, rfl, fun a => by rw [if_neg (by omega)], id⟩
  | succ n ih =>
    have ha : s.effAddr k < 4096 := by simp only [State.effAddr]; omega
    obtain ⟨m, hm, hbyte, hwf⟩ :=
      ih (k + 1) { s with mem := s.mem.set (s.effAddr k) (s.reg (BitVec.ofNat 4 k)) } (by simp; omega)
    refine ⟨m, ?_, fun a => ?_, fun hs => hwf (Memory.wf_set hs ha)⟩
    · rw [storeRegs, write_of_lt _ _ ha, andThen_go, hm]
    · rw [hbyte]
      simp only [State.reg_withMem, Memory.byte_set, State.effAddr]
      by_cases he : a = s.i.toNat + k
      · rw [if_neg (by omega), if_pos he, if_pos (by omega)]
        simp [he]
      · rw [if_neg he]
        by_cases h1 : s.i.toNat + (k + 1) ≤ a ∧ a < s.i.toNat + (k + 1) + n
        · rw [if_pos h1, if_pos (by omega)]
        · rw [if_neg h1, if_neg (by omega)]

/-- `storeRegs` out of range: raises at the first address not below 4096, with only memory changed
(R164, R166). -/
theorem storeRegs_raised (n k : Nat) (s : State) (h : 4096 < s.i.toNat + k + n) (hn : 0 < n) :
    ∃ m, storeRegs n k s =
        .raised (.memOutOfBounds (max (s.i.toNat + k) 4096) .write) { s with mem := m } ∧
      (s.mem.wf = true → m.wf = true) := by
  induction n generalizing k s with
  | zero => omega
  | succ n ih =>
    by_cases ha : s.effAddr k < 4096
    · have hk : s.i.toNat + k < 4096 := ha
      obtain ⟨m, hm, hwf⟩ :=
        ih (k + 1) { s with mem := s.mem.set (s.effAddr k) (s.reg (BitVec.ofNat 4 k)) }
          (by simp; omega) (by omega)
      refine ⟨m, ?_, fun hs => hwf (Memory.wf_set hs ha)⟩
      rw [storeRegs, write_of_lt _ _ ha, andThen_go, hm]
      simp only []
      rw [show max (s.i.toNat + (k + 1)) 4096 = max (s.i.toNat + k) 4096 by omega]
    · have hk : 4096 ≤ s.i.toNat + k := Nat.not_lt.mp ha
      refine ⟨s.mem, ?_, id⟩
      rw [storeRegs, write_of_ge (a := s.effAddr k) _ _ hk, andThen_raised, State.effAddr,
        Nat.max_eq_left hk]

theorem ofNat4_toNat {k : Nat} (h : k < 16) : (BitVec.ofNat 4 k).toNat = k := by
  simp [BitVec.toNat_ofNat, Nat.mod_eq_of_lt h]

theorem eq_ofNat4_iff {k : Nat} (h : k < 16) (r : Nibble) : r = BitVec.ofNat 4 k ↔ r.toNat = k := by
  constructor
  · rintro rfl; exact ofNat4_toNat h
  · intro e; exact BitVec.eq_of_toNat_eq (by rw [ofNat4_toNat h, e])

/-- `loadRegs` in range: only the registers `k` to `k + n - 1` change (R165). -/
theorem loadRegs_go (n k : Nat) (s : State) (h : s.i.toNat + k + n ≤ 4096) (hk : k + n ≤ 16) :
    ∃ t, loadRegs n k s = .go t ∧ t = { s with v := t.v } ∧
      ∀ r, t.reg r = if k ≤ r.toNat ∧ r.toNat < k + n
        then s.mem.byte (s.i.toNat + r.toNat) else s.reg r := by
  induction n generalizing k s with
  | zero => exact ⟨s, rfl, rfl, fun r => by rw [if_neg (by omega)]⟩
  | succ n ih =>
    have ha : s.effAddr k < 4096 := by simp only [State.effAddr]; omega
    obtain ⟨t, ht, hts, hreg⟩ :=
      ih (k + 1) (s.setReg (BitVec.ofNat 4 k) (s.mem.byte (s.effAddr k))) (by simp; omega) (by omega)
    refine ⟨t, ?_, by rw [hts]; rfl, fun r => ?_⟩
    · rw [loadRegs, read_of_lt _ ha]; exact ht
    · rw [hreg, State.reg_setReg]
      simp only [State.setReg_mem, State.setReg_i, State.effAddr, eq_ofNat4_iff (show k < 16 by omega)]
      by_cases he : r.toNat = k
      · rw [if_neg (by omega), if_pos he, if_pos (by omega), he]
      · rw [if_neg he]
        by_cases h1 : k + 1 ≤ r.toNat ∧ r.toNat < k + 1 + n
        · rw [if_pos h1, if_pos (by omega)]
        · rw [if_neg h1, if_neg (by omega)]

/-- `loadRegs` out of range: raises at the first address not below 4096, with only registers changed
(R165, R166). -/
theorem loadRegs_raised (n k : Nat) (s : State) (h : 4096 < s.i.toNat + k + n) (hn : 0 < n) :
    ∃ t, loadRegs n k s =
        .raised (.memOutOfBounds (max (s.i.toNat + k) 4096) .read) t ∧ t = { s with v := t.v } := by
  induction n generalizing k s with
  | zero => omega
  | succ n ih =>
    by_cases ha : s.effAddr k < 4096
    · have hk : s.i.toNat + k < 4096 := ha
      obtain ⟨t, ht, hts⟩ :=
        ih (k + 1) (s.setReg (BitVec.ofNat 4 k) (s.mem.byte (s.effAddr k))) (by simp; omega) (by omega)
      refine ⟨t, ?_, by rw [hts]; rfl⟩
      rw [loadRegs, read_of_lt _ ha]
      refine ht.trans ?_
      rw [State.setReg_i, show max (s.i.toNat + (k + 1)) 4096 = max (s.i.toNat + k) 4096 by omega]
    · have hk : 4096 ≤ s.i.toNat + k := Nat.not_lt.mp ha
      refine ⟨s, ?_, rfl⟩
      rw [loadRegs, read_of_ge (a := s.effAddr k) _ hk]
      simp only [State.effAddr, Nat.max_eq_left hk]

/-! ### Drawing -/

theorem cell_flip (d : Display) {cx cy : Nat} (hx : cx < 64) (hy : cy < 32) (cx' cy' : Nat) :
    Display.cell (Display.flip d cx cy) cx' cy' =
      (Display.cell d cx' cy' ^^ decide (cx' = cx ∧ cy' = cy)) := by
  unfold Display.cell Display.flip
  by_cases h : cy' = cy
  · subst cy'
    have : (d.setIfInBounds cy (d.getD cy 0 ^^^ 1#64 <<< cx)).getD cy 0 =
        d.getD cy 0 ^^^ 1#64 <<< cx := by simp [Vector.getD, hy]
    rw [this]
    by_cases h2 : cx' = cx
    · subst cx'; simp [hx]
    · by_cases h3 : cx' < 64
      · have : ¬(cx' - cx = 0 ∧ ¬cx' < cx) := by omega
        by_cases h4 : cx' < cx
        · simp [h2, h4]
        · have : cx' - cx ≠ 0 := by omega
          simp [h2, h4, this]
      · simp [h2, BitVec.getLsbD_of_ge _ _ (Nat.not_lt.mp h3)]
  · have : (d.setIfInBounds cy (d.getD cy 0 ^^^ 1#64 <<< cx)).getD cy' 0 = d.getD cy' 0 := by
      by_cases h5 : cy' < 32
      · simp [Vector.getD, h5, Ne.symm h]
      · simp [Vector.getD, h5]
    rw [this]; simp [h]

/-- Whether column `k` of a sprite byte is drawn (R171). -/
theorem drawBits_spec (c : Canvas) (x0 cy : Nat) (b : Byte) (hy : cy < 32) (n : Nat) :
    let c' := (List.range n).foldl
      (fun c k => if x0 + k < Config.dispW && b.getLsbD (7 - k) then c.toggle (x0 + k) cy else c) c
    (∀ cx' cy', cx' < 64 → Display.cell c'.disp cx' cy' =
      (Display.cell c.disp cx' cy' ^^
        (decide (x0 ≤ cx' ∧ cx' < x0 + n ∧ cy' = cy) && b.getLsbD (7 - (cx' - x0))))) ∧
    (c'.hit = true ↔ c.hit = true ∨ ∃ cx, cx < 64 ∧ x0 ≤ cx ∧ cx < x0 + n ∧
      b.getLsbD (7 - (cx - x0)) = true ∧ Display.cell c.disp cx cy = true) := by
  induction n with
  | zero =>
    refine ⟨fun cx' cy' _ => ?_, ?_⟩
    · have : ¬(x0 ≤ cx' ∧ cx' < x0 + 0 ∧ cy' = cy) := by omega
      rw [decide_eq_false this]; simp
    · constructor
      · exact Or.inl
      · rintro (h | ⟨cx, -, h1, h2, -⟩)
        · exact h
        · omega
  | succ n ih =>
    obtain ⟨ihc, ihh⟩ := ih
    simp only [List.range_succ, List.foldl_append, List.foldl_cons, List.foldl_nil]
    set c1 := (List.range n).foldl
      (fun c k => if x0 + k < Config.dispW && b.getLsbD (7 - k) then c.toggle (x0 + k) cy else c) c
      with hc1
    by_cases hdraw : (decide (x0 + n < Config.dispW) && b.getLsbD (7 - n)) = true
    · obtain ⟨hx, hb⟩ : x0 + n < 64 ∧ b.getLsbD (7 - n) = true := by
        simpa only [Bool.and_eq_true, decide_eq_true_eq] using hdraw
      rw [if_pos hdraw]
      refine ⟨fun cx' cy' hcx' => ?_, ?_⟩
      · simp only [Canvas.toggle]
        rw [cell_flip _ hx hy, ihc _ _ hcx']
        by_cases he : cx' = x0 + n ∧ cy' = cy
        · obtain ⟨rfl, rfl⟩ := he
          have h2 : ¬(x0 ≤ x0 + n ∧ x0 + n < x0 + n ∧ cy' = cy') := by omega
          have h3 : x0 ≤ x0 + n ∧ x0 + n < x0 + (n + 1) ∧ cy' = cy' := by omega
          have h4 : x0 + n - x0 = n := by omega
          simp [h4, hb]
        · have h2 : (x0 ≤ cx' ∧ cx' < x0 + n ∧ cy' = cy) ↔
              (x0 ≤ cx' ∧ cx' < x0 + (n + 1) ∧ cy' = cy) := by omega
          simp [he, h2]
      · have hcell : Display.cell c1.disp (x0 + n) cy = Display.cell c.disp (x0 + n) cy := by
          rw [ihc _ _ hx]
          have : ¬(x0 ≤ x0 + n ∧ x0 + n < x0 + n ∧ cy = cy) := by omega
          simp
        simp only [Canvas.toggle, Bool.or_eq_true, ihh, hcell]
        constructor
        · rintro ((h | ⟨cx, h1, h2, h3, h4⟩) | h)
          · exact .inl h
          · exact .inr ⟨cx, h1, h2, by omega, h4⟩
          · exact .inr ⟨x0 + n, hx, by omega, by omega, by simpa using hb, h⟩
        · rintro (h | ⟨cx, h1, h2, h3, h4, h5⟩)
          · exact .inl (.inl h)
          · by_cases he : cx = x0 + n
            · exact .inr (he ▸ h5)
            · exact .inl (.inr ⟨cx, h1, h2, by omega, h4, h5⟩)
    · rw [if_neg hdraw]
      have hno : ∀ cx', cx' < 64 → x0 ≤ cx' → cx' < x0 + (n + 1) →
          b.getLsbD (7 - (cx' - x0)) = true → cx' < x0 + n := by
        intro cx' h1 h2 h3 h4
        by_contra hge
        have he : cx' = x0 + n := by omega
        subst cx'
        have h5 : x0 + n - x0 = n := by omega
        rw [h5] at h4
        exact hdraw (by simp [h1, h4])
      refine ⟨fun cx' cy' hcx' => ?_, ?_⟩
      · rw [ihc _ _ hcx']
        by_cases hb : b.getLsbD (7 - (cx' - x0)) = true
        · have h2 : (x0 ≤ cx' ∧ cx' < x0 + n ∧ cy' = cy) ↔
              (x0 ≤ cx' ∧ cx' < x0 + (n + 1) ∧ cy' = cy) := by
            constructor
            · rintro ⟨h1, h2, h3⟩; exact ⟨h1, by omega, h3⟩
            · rintro ⟨h1, h2, h3⟩; exact ⟨h1, hno cx' hcx' h1 h2 hb, h3⟩
          simp [h2]
        · simp [hb]
      · rw [ihh]
        constructor
        · rintro (h | ⟨cx, h1, h2, h3, h4⟩)
          · exact .inl h
          · exact .inr ⟨cx, h1, h2, by omega, h4⟩
        · rintro (h | ⟨cx, h1, h2, h3, h4, h5⟩)
          · exact .inl h
          · exact .inr ⟨cx, h1, h2, hno cx h1 h2 h3 h4, h4, h5⟩

/-- One sprite byte: the cells under its visible set bits are toggled, and the hit grows by a cell
among them that was on (R171, R174). -/
theorem drawByte_spec (c : Canvas) (x0 cy : Nat) (b : Byte) :
    (∀ cx' cy', cx' < 64 → cy' < 32 → Display.cell (c.drawByte x0 cy b).disp cx' cy' =
      (Display.cell c.disp cx' cy' ^^
        (decide (x0 ≤ cx' ∧ cx' < x0 + 8 ∧ cy' = cy) && b.getLsbD (7 - (cx' - x0))))) ∧
    ((c.drawByte x0 cy b).hit = true ↔ c.hit = true ∨ ∃ cx, cx < 64 ∧ cy < 32 ∧ x0 ≤ cx ∧
      cx < x0 + 8 ∧ b.getLsbD (7 - (cx - x0)) = true ∧ Display.cell c.disp cx cy = true) := by
  by_cases hy : cy < 32
  · obtain ⟨h1, h2⟩ := drawBits_spec c x0 cy b hy 8
    have hc : c.drawByte x0 cy b = (List.range 8).foldl
      (fun c k => if x0 + k < Config.dispW && b.getLsbD (7 - k) then c.toggle (x0 + k) cy else c) c := by
      simp only [Canvas.drawByte, Config.dispH, if_pos hy]
    rw [hc]
    refine ⟨fun cx' cy' hx' _ => h1 cx' cy' hx', h2.trans ?_⟩
    simp [hy]
  · have hc : c.drawByte x0 cy b = c := by simp only [Canvas.drawByte, Config.dispH, if_neg hy]
    rw [hc]
    refine ⟨fun cx' cy' _ hy' => ?_, ?_⟩
    · have : ¬(x0 ≤ cx' ∧ cx' < x0 + 8 ∧ cy' = cy) := by omega
      simp [this]
    · simp [hy]

/-- The part of the clipped sprite mask that rows `r` to `r + n - 1` make. -/
def rowsBit (s : State) (x0 y0 r n cx cy : Nat) : Bool :=
  decide (x0 ≤ cx ∧ cx < x0 + 8 ∧ y0 + r ≤ cy ∧ cy < y0 + r + n) &&
    (s.mem.byte (s.effAddr (cy - y0))).getLsbD (7 - (cx - x0))

theorem rowsBit_zero (s : State) (x0 y0 n cx cy : Nat) :
    rowsBit s x0 y0 0 n cx cy = spriteBit s x0 y0 n cx cy := rfl

theorem rowsBit_succ (s : State) (x0 y0 r n cx cy : Nat) :
    rowsBit s x0 y0 r (n + 1) cx cy =
      (decide (x0 ≤ cx ∧ cx < x0 + 8 ∧ cy = y0 + r) &&
        (s.mem.byte (s.effAddr r)).getLsbD (7 - (cx - x0)) ^^ rowsBit s x0 y0 (r + 1) n cx cy) := by
  unfold rowsBit
  by_cases he : cy = y0 + r
  · subst cy
    have h1 : ¬(x0 ≤ cx ∧ cx < x0 + 8 ∧ y0 + (r + 1) ≤ y0 + r ∧ y0 + r < y0 + (r + 1) + n) := by omega
    have h2 : (x0 ≤ cx ∧ cx < x0 + 8 ∧ y0 + r ≤ y0 + r ∧ y0 + r < y0 + r + (n + 1)) ↔
        (x0 ≤ cx ∧ cx < x0 + 8 ∧ y0 + r = y0 + r) := by omega
    have h3 : y0 + r - y0 = r := by omega
    rw [decide_eq_false h1, h3]
    simp only [h2, Bool.false_and, Bool.xor_false]
  · have h2 : (x0 ≤ cx ∧ cx < x0 + 8 ∧ y0 + r ≤ cy ∧ cy < y0 + r + (n + 1)) ↔
        (x0 ≤ cx ∧ cx < x0 + 8 ∧ y0 + (r + 1) ≤ cy ∧ cy < y0 + (r + 1) + n) := by omega
    have h3 : ¬(x0 ≤ cx ∧ cx < x0 + 8 ∧ cy = y0 + r) := by omega
    rw [decide_eq_false h3]
    simp only [h2, Bool.false_and, Bool.false_xor]

/-- `drawRows` in range: the display becomes the old one XOR the mask of the rows, `VF` says whether
a set cell lay under it, and nothing else changes (R171, R174). -/
theorem drawRows_go (x0 y0 n r : Nat) (hit : Bool) (s : State)
    (h : n = 0 ∨ s.i.toNat + r + n ≤ 4096) :
    ∃ d hit', drawRows x0 y0 n r hit s = .go (State.setReg { s with disp := d } vf (flagByte hit')) ∧
      (∀ cx cy, cx < 64 → cy < 32 →
        Display.cell d cx cy = (Display.cell s.disp cx cy ^^ rowsBit s x0 y0 r n cx cy)) ∧
      (hit' = true ↔ hit = true ∨ ∃ cx cy, cx < 64 ∧ cy < 32 ∧
        rowsBit s x0 y0 r n cx cy = true ∧ Display.cell s.disp cx cy = true) := by
  induction n generalizing r hit s with
  | zero =>
    have hb : ∀ cx cy, rowsBit s x0 y0 r 0 cx cy = false := by
      intro cx cy
      have : ¬(x0 ≤ cx ∧ cx < x0 + 8 ∧ y0 + r ≤ cy ∧ cy < y0 + r + 0) := by omega
      simp only [rowsBit, decide_eq_false this, Bool.false_and]
    refine ⟨s.disp, hit, rfl, fun cx cy _ _ => by simp [hb], ?_⟩
    simp [hb]
  | succ n ih =>
    have hr : s.i.toNat + r + (n + 1) ≤ 4096 := by omega
    have ha : s.effAddr r < 4096 := by simp only [State.effAddr]; omega
    obtain ⟨hcell, hhit⟩ :=
      drawByte_spec { disp := s.disp, hit := hit } x0 (y0 + r) (s.mem.byte (s.effAddr r))
    set c := Canvas.drawByte { disp := s.disp, hit := hit } x0 (y0 + r) (s.mem.byte (s.effAddr r))
    obtain ⟨d, hit', hd, hdc, hdh⟩ := ih (r + 1) c.hit { s with disp := c.disp } (by right; simp; omega)
    have hrow : ∀ cx cy, rowsBit { s with disp := c.disp } x0 y0 (r + 1) n cx cy =
        rowsBit s x0 y0 (r + 1) n cx cy := fun _ _ => rfl
    refine ⟨d, hit', ?_, fun cx cy hx hy => ?_, ?_⟩
    · rw [drawRows, read_of_lt _ ha]; exact hd
    · rw [hdc cx cy hx hy, hcell cx cy hx hy, hrow, rowsBit_succ, Bool.xor_assoc]
    · rw [hdh, hhit]
      constructor
      · rintro ((h0 | ⟨cx, h1, h2, h3, h4, h5, h6⟩) | ⟨cx, cy, h1, h2, h3, h4⟩)
        · exact .inl h0
        · refine .inr ⟨cx, y0 + r, h1, h2, ?_, h6⟩
          have h7 : rowsBit s x0 y0 (r + 1) n cx (y0 + r) = false := by
            have : ¬(x0 ≤ cx ∧ cx < x0 + 8 ∧ y0 + (r + 1) ≤ y0 + r ∧ y0 + r < y0 + (r + 1) + n) := by
              omega
            simp only [rowsBit, decide_eq_false this, Bool.false_and]
          rw [rowsBit_succ, h7]
          simp [h3, h4, h5]
        · rw [hrow] at h3
          have hne : cy ≠ y0 + r := by
            rintro rfl
            have : ¬(x0 ≤ cx ∧ cx < x0 + 8 ∧ y0 + (r + 1) ≤ y0 + r ∧ y0 + r < y0 + (r + 1) + n) := by
              omega
            rw [rowsBit, decide_eq_false this] at h3
            exact Bool.noConfusion h3
          have h5 : ¬(x0 ≤ cx ∧ cx < x0 + 8 ∧ cy = y0 + r) := by omega
          refine .inr ⟨cx, cy, h1, h2, ?_, ?_⟩
          · rw [rowsBit_succ, decide_eq_false h5, h3]; simp
          · have h6 := hcell cx cy h1 h2
            rw [decide_eq_false h5] at h6
            simpa [h6] using h4
      · rintro (h0 | ⟨cx, cy, h1, h2, h3, h4⟩)
        · exact .inl (.inl h0)
        · by_cases he : cy = y0 + r
          · subst cy
            have h7 : rowsBit s x0 y0 (r + 1) n cx (y0 + r) = false := by
              have : ¬(x0 ≤ cx ∧ cx < x0 + 8 ∧ y0 + (r + 1) ≤ y0 + r ∧ y0 + r < y0 + (r + 1) + n) := by
                omega
              simp only [rowsBit, decide_eq_false this, Bool.false_and]
            rw [rowsBit_succ, h7] at h3
            simp only [Bool.xor_false, Bool.and_eq_true, decide_eq_true_eq] at h3
            exact .inl (.inr ⟨cx, h1, h2, h3.1.1, h3.1.2.1, h3.2, h4⟩)
          · have h5 : ¬(x0 ≤ cx ∧ cx < x0 + 8 ∧ cy = y0 + r) := by omega
            rw [rowsBit_succ, decide_eq_false h5] at h3
            have h6 := hcell cx cy h1 h2
            rw [decide_eq_false h5] at h6
            refine .inr ⟨cx, cy, h1, h2, ?_, ?_⟩
            · rw [hrow]; simpa using h3
            · simpa [h6] using h4

/-- `drawRows` out of range: raises at the first address not below 4096, with only the display
changed (R171, R166). -/
theorem drawRows_raised (x0 y0 n r : Nat) (hit : Bool) (s : State)
    (h : 4096 < s.i.toNat + r + n) (hn : 0 < n) :
    ∃ d, drawRows x0 y0 n r hit s =
      .raised (.memOutOfBounds (max (s.i.toNat + r) 4096) .read) { s with disp := d } := by
  induction n generalizing r hit s with
  | zero => omega
  | succ n ih =>
    by_cases ha : s.effAddr r < 4096
    · have hk : s.i.toNat + r < 4096 := ha
      set c := Canvas.drawByte { disp := s.disp, hit := hit } x0 (y0 + r) (s.mem.byte (s.effAddr r))
        with hc
      obtain ⟨d, hd⟩ := ih (r + 1) c.hit { s with disp := c.disp } (by simp; omega) (by omega)
      refine ⟨d, ?_⟩
      rw [drawRows, read_of_lt _ ha]
      refine hd.trans ?_
      simp only []
      rw [show max (s.i.toNat + (r + 1)) 4096 = max (s.i.toNat + r) 4096 by omega]
    · have hk : 4096 ≤ s.i.toNat + r := Nat.not_lt.mp ha
      refine ⟨s.disp, ?_⟩
      rw [drawRows, read_of_ge (a := s.effAddr r) _ hk]
      simp only [State.effAddr, Nat.max_eq_left hk]

/-! ### The clamp of a sprite's start never binds (R171) -/

theorem startCol_eq (b : Byte) : startCol b = b.toNat % 64 := by
  simp only [startCol, Config.dispW]; omega

theorem startRow_eq (b : Byte) : startRow b = b.toNat % 32 := by
  simp only [startRow, Config.dispH]; omega

end Sys2Proof.Machine
end

