-- ==== Sys2Proof/Laws/Cycle.lean ====
section
/-! SUPPORT. The phases around the execute phase (R190): one lemma per way a step can go, the gate, the
poll, and runs of several cycles. Callers cite these and do not unfold `step`. -/

namespace Sys2Proof.Machine

/-! ### Fetch and decode -/

@[simp] theorem pollInput_fetchWord (s : State) : s.pollInput.fetchWord = s.fetchWord := rfl

@[simp] theorem pollInput_fetchDecode (s : State) : s.pollInput.fetchDecode = s.fetchDecode := rfl

theorem fetchDecode_of_ge (s : State) (h : 4095 ≤ s.pc.toNat) :
    s.fetchDecode = .error (.memOutOfBounds s.pc.toNat .fetch) := by
  simp [State.fetchDecode, fetchWord_of_ge s h]

theorem fetchDecode_of_unmapped {s : State} {op : Word} {r : Reject} (hf : s.fetchWord = some op)
    (hd : decode op = .error r) : s.fetchDecode = .error (.decodeError op) := by
  simp [State.fetchDecode, hf, hd]

theorem fetchDecode_of_mapped {s : State} {op : Word} {i : Instr} (hf : s.fetchWord = some op)
    (hd : decode op = .ok i) : s.fetchDecode = .ok i := by
  simp [State.fetchDecode, hf, hd]

/-- Fetching depends on `pc` and memory only. -/
theorem fetchDecode_congr {s t : State} (hp : t.pc = s.pc) (hm : t.mem = s.mem) :
    t.fetchDecode = s.fetchDecode := by
  simp only [State.fetchDecode, State.fetchWord, hp, hm]

/-! ### The ways a step can go -/

theorem endCycle_of_running {t : State} (h : t.halted = false) :
    endCycle (.next t) = .next t.timerGate.publish := by
  simp [endCycle, h]

theorem endCycle_of_raised {t : State} (h : t.halted = true) : endCycle (.next t) = .next t := by
  simp [endCycle, h]

theorem step_of_error {s : State} {c : Cause} (h : s.halted = false) (hf : s.fetchDecode = .error c) :
    step s = .next (s.pollInput.takeFatal c) := by
  simp [step, h, hf, raise]

theorem step_of_ok {s : State} {i : Instr} (h : s.halted = false) (hf : s.fetchDecode = .ok i) :
    step s = endCycle (exec i s.pollInput) := by
  simp [step, h, hf]

/-- Everything a step that answers a next state can have done (R190): a fatal condition of phases 2
and 3, an instruction that raised, or a completed cycle. -/
theorem step_cases {s t : State} (h : step s = .next t) :
    s.halted = false ∧
      ((∃ c, s.fetchDecode = .error c ∧ t = s.pollInput.takeFatal c) ∨
        ∃ i u, s.fetchDecode = .ok i ∧ exec i s.pollInput = .next u ∧
          ((u.halted = true ∧ t = u) ∨ (u.halted = false ∧ t = u.timerGate.publish))) := by
  cases hh : s.halted with
  | true => simp [step, hh] at h
  | false =>
    refine ⟨rfl, ?_⟩
    cases hf : s.fetchDecode with
    | error c =>
      rw [step_of_error hh hf] at h
      exact .inl ⟨c, rfl, (Host.Outcome.next.inj h).symm⟩
    | ok i =>
      rw [step_of_ok hh hf] at h
      refine .inr ⟨i, ?_⟩
      cases he : exec i s.pollInput with
      | next u =>
        rw [he] at h
        refine ⟨u, rfl, rfl, ?_⟩
        cases hu : u.halted with
        | true =>
          rw [endCycle_of_raised hu] at h
          exact .inl ⟨rfl, (Host.Outcome.next.inj h).symm⟩
        | false =>
          rw [endCycle_of_running hu] at h
          exact .inr ⟨rfl, (Host.Outcome.next.inj h).symm⟩
      | fault r => rw [he] at h; cases h
      | refused r => rw [he] at h; cases h

/-! ### The gate (R194) -/

theorem countDown_toNat (b : Byte) : (countDown b).toNat = b.toNat - 1 := by
  unfold countDown
  split
  · next h => simp [h]
  · next h =>
    have : b.toNat ≠ 0 := fun h0 => h (BitVec.eq_of_toNat_eq h0)
    have hb := b.isLt
    rw [BitVec.toNat_sub, show (1 : Byte).toNat = 1 from rfl]
    omega

theorem timerGate_tick_mod {s : State} (h : s.tick < 10) : s.timerGate.tick = (s.tick + 1) % 10 := by
  simp only [State.timerGate, Config.timerDiv]
  split
  · next h1 => simp [h1]
  · simp only []; omega

theorem timerGate_dt_toNat (s : State) :
    s.timerGate.dt.toNat = s.dt.toNat - (if s.tick = 9 then 1 else 0) := by
  simp only [State.timerGate, Config.timerDiv, Nat.reduceEqDiff]
  split <;> simp [countDown_toNat]

theorem timerGate_st_toNat (s : State) :
    s.timerGate.st.toNat = s.st.toNat - (if s.tick = 9 then 1 else 0) := by
  simp only [State.timerGate, Config.timerDiv, Nat.reduceEqDiff]
  split <;> simp [countDown_toNat]

/-! ### The poll (R191) -/

/-- One event: the named key follows it, every other key keeps its level. -/
theorem applyKeyEvent_bit (key : BitVec 16) (e : KeyEvent) (k : Nibble) :
    (applyKeyEvent key e).getLsbD k.toNat =
      if e.key = k then e.pressed else key.getLsbD k.toNat := by
  have hk : k.toNat < 16 := k.isLt
  have he : e.key.toNat < 16 := e.key.isLt
  by_cases h : e.key = k
  · subst h
    cases hp : e.pressed <;> simp [applyKeyEvent, hp, he]
  · have hne : e.key.toNat ≠ k.toNat := fun hc => h (BitVec.eq_of_toNat_eq hc)
    by_cases hlt : k.toNat < e.key.toNat
    · cases hp : e.pressed <;> simp [applyKeyEvent, hp, h, hlt, hk]
    · have : k.toNat - e.key.toNat ≠ 0 := by omega
      cases hp : e.pressed <;> simp [applyKeyEvent, hp, h, this, hk]

/-! ### Runs of several cycles -/

theorem runFor_succ_of_next {s u : State} (n : Nat) (h : step s = .next u) :
    runFor (n + 1) s = runFor n u := by
  simp only [runFor, h]

/-- A run that answers a next state began with a step that did. -/
theorem runFor_succ_cases {s t : State} {n : Nat} (h : runFor (n + 1) s = .next t) :
    ∃ u, step s = .next u ∧ runFor n u = .next t := by
  simp only [runFor] at h
  cases hs : step s with
  | next u => rw [hs] at h; exact ⟨u, rfl, h⟩
  | fault r => rw [hs] at h; cases h
  | refused r => rw [hs] at h; cases h

/-- The host's run on the three outcomes of its first step, for any machine. -/
theorem run_succ (M : Host.Core) (n : Nat) (s : M.State) :
    (∀ t, M.step s = .next t → M.run (n + 1) s = M.run n t) ∧
    (∀ r, M.step s = .fault r → M.run (n + 1) s = .fault r) ∧
    (∀ r, M.step s = .refused r → M.run (n + 1) s = .refused r) :=
  ⟨fun _ h => by simp only [Host.Core.run, h], fun _ h => by simp only [Host.Core.run, h],
    fun _ h => by simp only [Host.Core.run, h]⟩

/-- `runFor` is the host's run of this machine. -/
theorem run_core (n : Nat) (s : State) : Host.Core.run Sys2Proof.core n s = runFor n s := by
  induction n generalizing s with
  | zero => rfl
  | succ n ih =>
    obtain ⟨h1, h2, h3⟩ := run_succ Sys2Proof.core n s
    cases hs : step s with
    | next u => exact (h1 u hs).trans ((ih u).trans (runFor_succ_of_next n hs).symm)
    | fault r => exact (h2 r hs).trans (by simp only [runFor, hs]; rfl)
    | refused r => exact (h3 r hs).trans (by simp only [runFor, hs]; rfl)

end Sys2Proof.Machine
end

