-- ==== Sys2Proof/Laws/Decode.lean ====
section
/-! SUPPORT. The encoding: the bits of a word built from its fields, the rows select disjoint words,
and what decoding answers (R91, R92, R94, R95). -/

namespace Sys2Proof

/-! ### The bits of a word, by format (R92) -/

/-- Format A: group and address. -/
theorem bits_formatA (g : Nibble) (nnn : Addr12) (i : Nat) :
    (g ++ nnn : Word).getLsbD i = if i < 12 then nnn.getLsbD i else g.getLsbD (i - 12) :=
  BitVec.getLsbD_append

/-- Formats I and X: group, register, byte. -/
theorem bits_formatI (g x : Nibble) (kk : Byte) (i : Nat) :
    (g ++ x ++ kk : Word).getLsbD i =
      if i < 8 then kk.getLsbD i
      else if i - 8 < 4 then x.getLsbD (i - 8) else g.getLsbD (i - 8 - 4) :=
  BitVec.getLsbD_append.trans (by rw [BitVec.getLsbD_append])

/-- Formats R and D: four nibbles. -/
theorem bits_formatR (g x y n : Nibble) (i : Nat) :
    (g ++ x ++ y ++ n : Word).getLsbD i =
      if i < 4 then n.getLsbD i
      else if i - 4 < 4 then y.getLsbD (i - 4)
      else if i - 4 - 4 < 4 then x.getLsbD (i - 4 - 4) else g.getLsbD (i - 4 - 4 - 4) :=
  BitVec.getLsbD_append.trans (by rw [BitVec.getLsbD_append, BitVec.getLsbD_append])

/-! ### Masks keep the fixed bits (R94) -/

theorem mask_formatA (g : Nibble) (nnn : Addr12) :
    (g ++ nnn : Word) &&& 0xF000#16 = (g ++ 0#12 : Word) := by
  apply BitVec.eq_of_getLsbD_eq
  intro i hi
  rw [BitVec.getLsbD_and, bits_formatA, bits_formatA]
  interval_cases i <;> simp

theorem mask_formatI (g x : Nibble) (kk : Byte) :
    (g ++ x ++ kk : Word) &&& 0xF000#16 = (g ++ 0#4 ++ 0#8 : Word) := by
  apply BitVec.eq_of_getLsbD_eq
  intro i hi
  rw [BitVec.getLsbD_and, bits_formatI, bits_formatI]
  interval_cases i <;> simp

theorem mask_formatX (g x : Nibble) (kk : Byte) :
    (g ++ x ++ kk : Word) &&& 0xF0FF#16 = (g ++ 0#4 ++ kk : Word) := by
  apply BitVec.eq_of_getLsbD_eq
  intro i hi
  rw [BitVec.getLsbD_and, bits_formatI, bits_formatI]
  interval_cases i <;> simp

theorem mask_formatR (g x y n : Nibble) :
    (g ++ x ++ y ++ n : Word) &&& 0xF00F#16 = (g ++ 0#4 ++ 0#4 ++ n : Word) := by
  apply BitVec.eq_of_getLsbD_eq
  intro i hi
  rw [BitVec.getLsbD_and, bits_formatR, bits_formatR]
  interval_cases i <;> simp

theorem mask_formatD (g x y n : Nibble) :
    (g ++ x ++ y ++ n : Word) &&& 0xF000#16 = (g ++ 0#4 ++ 0#4 ++ 0#4 : Word) := by
  apply BitVec.eq_of_getLsbD_eq
  intro i hi
  rw [BitVec.getLsbD_and, bits_formatR, bits_formatR]
  interval_cases i <;> simp

/-! ### Masks and fields as arithmetic -/

/-- The group of a word, in place. -/
theorem toNat_and_F000 (op : Word) : (op &&& 0xF000#16).toNat = op.toNat / 4096 * 4096 := by
  have h : op &&& 0xF000#16 = (op >>> 12) <<< 12 := by
    apply BitVec.eq_of_getLsbD_eq
    intro i hi
    simp only [BitVec.getLsbD_and, BitVec.getLsbD_shiftLeft, BitVec.getLsbD_ushiftRight]
    interval_cases i <;> simp
  have := op.isLt
  simp only [h, BitVec.toNat_shiftLeft, BitVec.toNat_ushiftRight, Nat.shiftRight_eq_div_pow,
    Nat.shiftLeft_eq]
  omega

/-- The group and the low `k` bits of a word, for a mask that keeps both. -/
theorem toNat_and_group_low (op : Word) (k : Nat) (m : Word) (hk : k ≤ 12)
    (hm : m = 0xF000#16 ||| BitVec.ofNat 16 (2 ^ k - 1)) :
    (op &&& m).toNat = op.toNat / 4096 * 4096 + op.toNat % 2 ^ k := by
  have h : op &&& m = (op &&& 0xF000#16) ||| (op &&& BitVec.ofNat 16 (2 ^ k - 1)) := by
    apply BitVec.eq_of_getLsbD_eq
    intro i _
    rw [hm]
    simp only [BitVec.getLsbD_and, BitVec.getLsbD_or]
    cases op.getLsbD i <;> rfl
  have hpow : 2 ^ k ≤ 2 ^ 12 := Nat.pow_le_pow_right (by omega) hk
  have hlow : (op &&& BitVec.ofNat 16 (2 ^ k - 1)).toNat = op.toNat % 2 ^ k := by
    rw [BitVec.toNat_and, BitVec.toNat_ofNat, Nat.mod_eq_of_lt (by omega)]
    exact Nat.and_two_pow_sub_one_eq_mod op.toNat k
  have hshift : op.toNat / 4096 * 4096 = (op.toNat / 4096) <<< 12 := by rw [Nat.shiftLeft_eq]
  have hlt : op.toNat % 2 ^ k < 2 ^ 12 := Nat.lt_of_lt_of_le (Nat.mod_lt _ (by positivity)) hpow
  rw [h, BitVec.toNat_or, toNat_and_F000, hlow, hshift, ← Nat.shiftLeft_add_eq_or_of_lt hlt]

theorem toNat_and_F00F (op : Word) :
    (op &&& 0xF00F#16).toNat = op.toNat / 4096 * 4096 + op.toNat % 16 :=
  toNat_and_group_low op 4 _ (by omega) (by decide)

theorem toNat_and_F0FF (op : Word) :
    (op &&& 0xF0FF#16).toNat = op.toNat / 4096 * 4096 + op.toNat % 256 :=
  toNat_and_group_low op 8 _ (by omega) (by decide)

theorem toNat_fieldX (op : Word) : (fieldX op).toNat = op.toNat / 256 % 16 := by
  simp [fieldX, BitVec.extractLsb'_toNat, Nat.shiftRight_eq_div_pow]

theorem toNat_fieldY (op : Word) : (fieldY op).toNat = op.toNat / 16 % 16 := by
  simp [fieldY, BitVec.extractLsb'_toNat, Nat.shiftRight_eq_div_pow]

theorem toNat_fieldN (op : Word) : (fieldN op).toNat = op.toNat % 16 := by
  simp [fieldN, BitVec.extractLsb'_toNat]

theorem toNat_fieldKK (op : Word) : (fieldKK op).toNat = op.toNat % 256 := by
  simp [fieldKK, BitVec.extractLsb'_toNat]

theorem toNat_fieldNNN (op : Word) : (fieldNNN op).toNat = op.toNat % 4096 := by
  simp [fieldNNN, BitVec.extractLsb'_toNat]

/-- A concatenation as arithmetic. -/
theorem toNat_append_eq {m n : Nat} (a : BitVec m) (b : BitVec n) :
    (a ++ b).toNat = a.toNat * 2 ^ n + b.toNat := by
  rw [BitVec.toNat_append, ← Nat.shiftLeft_add_eq_or_of_lt b.isLt, Nat.shiftLeft_eq]

theorem toNat_formatA (g : Nibble) (nnn : Addr12) :
    (g ++ nnn : Word).toNat = g.toNat * 4096 + nnn.toNat := toNat_append_eq g nnn

theorem toNat_formatI (g x : Nibble) (kk : Byte) :
    (g ++ x ++ kk : Word).toNat = (g.toNat * 16 + x.toNat) * 256 + kk.toNat :=
  (toNat_append_eq (g ++ x) kk).trans (by rw [toNat_append_eq]; rfl)

theorem toNat_formatR (g x y n : Nibble) :
    (g ++ x ++ y ++ n : Word).toNat =
      ((g.toNat * 16 + x.toNat) * 16 + y.toNat) * 16 + n.toNat :=
  (toNat_append_eq (g ++ x ++ y) n).trans (by rw [toNat_append_eq, toNat_append_eq]; rfl)

theorem toNat_wordOfBytes (hi lo : Byte) : (wordOfBytes hi lo).toNat = 256 * hi.toNat + lo.toNat :=
  (toNat_append_eq hi lo).trans (by omega)

/-! ### The fields read back (R91) -/

@[simp] theorem fieldNNN_formatA (g : Nibble) (nnn : Addr12) : fieldNNN (g ++ nnn) = nnn := by
  apply BitVec.eq_of_getLsbD_eq
  intro i hi
  rw [fieldNNN, BitVec.getLsbD_extractLsb', bits_formatA]
  interval_cases i <;> simp

@[simp] theorem fieldX_formatI (g x : Nibble) (kk : Byte) : fieldX (g ++ x ++ kk) = x := by
  apply BitVec.eq_of_getLsbD_eq
  intro i hi
  rw [fieldX, BitVec.getLsbD_extractLsb', bits_formatI]
  interval_cases i <;> simp

@[simp] theorem fieldKK_formatI (g x : Nibble) (kk : Byte) : fieldKK (g ++ x ++ kk) = kk := by
  apply BitVec.eq_of_getLsbD_eq
  intro i hi
  rw [fieldKK, BitVec.getLsbD_extractLsb', bits_formatI]
  interval_cases i <;> simp

@[simp] theorem fieldX_formatR (g x y n : Nibble) : fieldX (g ++ x ++ y ++ n) = x := by
  apply BitVec.eq_of_getLsbD_eq
  intro i hi
  rw [fieldX, BitVec.getLsbD_extractLsb', bits_formatR]
  interval_cases i <;> simp

@[simp] theorem fieldY_formatR (g x y n : Nibble) : fieldY (g ++ x ++ y ++ n) = y := by
  apply BitVec.eq_of_getLsbD_eq
  intro i hi
  rw [fieldY, BitVec.getLsbD_extractLsb', bits_formatR]
  interval_cases i <;> simp

@[simp] theorem fieldN_formatR (g x y n : Nibble) : fieldN (g ++ x ++ y ++ n) = n := by
  apply BitVec.eq_of_getLsbD_eq
  intro i hi
  rw [fieldN, BitVec.getLsbD_extractLsb', bits_formatR]
  interval_cases i <;> simp

/-! ### Two bytes and a word (R66) -/

@[simp] theorem wordOfBytes_split (op : Word) : wordOfBytes (highByte op) (lowByte op) = op := by
  apply BitVec.eq_of_getLsbD_eq
  intro i hi
  rw [wordOfBytes, show BitVec.getLsbD (w := 16) (highByte op ++ lowByte op) i = _ from
    BitVec.getLsbD_append, highByte, lowByte, BitVec.getLsbD_extractLsb', BitVec.getLsbD_extractLsb']
  interval_cases i <;> simp

/-! ### Decoding (R94, R95) -/

/-- Two rows differ in a bit that both compare. -/
def OpcodeRow.Apart (r q : OpcodeRow) : Prop := (r.pattern ^^^ q.pattern) &&& (r.mask &&& q.mask) ≠ 0

theorem opcodeTable_apart : opcodeTable.Pairwise OpcodeRow.Apart := by
  unfold OpcodeRow.Apart; decide

theorem OpcodeRow.Apart.symm {r q : OpcodeRow} (h : r.Apart q) : q.Apart r := by
  unfold OpcodeRow.Apart at *
  rwa [BitVec.xor_comm, BitVec.and_comm q.mask]

theorem OpcodeRow.not_apart_of_selects {r q : OpcodeRow} {op : Word} (hr : r.selects op = true)
    (hq : q.selects op = true) : ¬ r.Apart q := by
  unfold OpcodeRow.selects at hr hq
  unfold OpcodeRow.Apart
  rw [beq_iff_eq] at hr hq
  rw [← hr, ← hq, not_not]
  apply BitVec.eq_of_getLsbD_eq
  intro i _
  have h0 : BitVec.getLsbD (0 : Word) i = false := BitVec.getLsbD_zero
  simp only [BitVec.getLsbD_and, BitVec.getLsbD_xor, h0]
  cases op.getLsbD i <;> cases r.mask.getLsbD i <;> cases q.mask.getLsbD i <;> rfl

/-- At most one row selects a word (R94). -/
theorem selects_unique {r q : OpcodeRow} {op : Word} (hr : r ∈ opcodeTable) (hq : q ∈ opcodeTable)
    (hsr : r.selects op = true) (hsq : q.selects op = true) : r = q := by
  by_contra hne
  have : Std.Symm OpcodeRow.Apart := ⟨fun _ _ => OpcodeRow.Apart.symm⟩
  exact OpcodeRow.not_apart_of_selects hsr hsq
    (opcodeTable_apart.forall hr hq hne)

/-- A row that selects a word is the one decoding answers. -/
theorem decode_of_selects {r : OpcodeRow} {op : Word} (hr : r ∈ opcodeTable)
    (hs : r.selects op = true) : decode op = .ok (r.build op) := by
  unfold decode
  cases hf : opcodeTable.find? (·.selects op) with
  | none => exact absurd hs (by simpa using List.find?_eq_none.mp hf r hr)
  | some q =>
    have hq : q = r := selects_unique (List.mem_of_find?_eq_some hf) hr
      (by simpa using List.find?_some hf) hs
    rw [hq]

/-- What decoding answers: a row's instruction, or that no row selects the word. -/
theorem decode_cases (op : Word) :
    (∃ r ∈ opcodeTable, r.selects op = true ∧ decode op = .ok (r.build op)) ∨
      ((∀ r ∈ opcodeTable, r.selects op = false) ∧ decode op = .error (.unmapped op)) := by
  unfold decode
  cases hf : opcodeTable.find? (·.selects op) with
  | none => exact .inr ⟨fun r hr => by simpa using List.find?_eq_none.mp hf r hr, rfl⟩
  | some q =>
    exact .inl ⟨q, List.mem_of_find?_eq_some hf, by simpa using List.find?_some hf, rfl⟩

end Sys2Proof
end

