-- ==== Sys2Proof/Laws/Exec.lean ====
section
/-! SUPPORT. What the instructions of several accesses can change, in range or not, and the one case
analysis of `exec` for claims about every instruction. -/

namespace Sys2Proof.Machine

/-! ### The state a flow carries, and the cause it may raise -/

/-- The state in which a flow goes on or has raised. -/
def Flow.state (f : Flow) : State :=
  match f with
  | .go s => s
  | .raised _ s => s

/-- A flow that raises nothing but `MemOutOfBounds` of one kind. -/
def Flow.BoundsOnly (f : Flow) (kind : AccessKind) : Prop :=
  match f with
  | .go _ => True
  | .raised c _ => ∃ a, c = .memOutOfBounds a kind

/-- Everything the end of such an instruction can do: the ordinary advance or the fatal condition. -/
theorem finish_cases {f : Flow} {kind : AccessKind} {t : State} (hb : f.BoundsOnly kind)
    (h : f.finish = .next t) :
    t = f.state.advance ∨ ∃ a, t = f.state.takeFatal (.memOutOfBounds a kind) := by
  cases f with
  | go u => exact .inl (Host.Outcome.next.inj h).symm
  | raised c u =>
    obtain ⟨a, rfl⟩ := hb
    exact .inr ⟨a, (Host.Outcome.next.inj h).symm⟩

theorem finish_eq_next (f : Flow) : ∃ t, f.finish = .next t := by
  cases f <;> exact ⟨_, rfl⟩

/-- A write changes memory only, keeps it canonical, and raises nothing but its own bound. -/
theorem write_state (s : State) (a : Nat) (b : Byte) :
    (s.write a b).BoundsOnly .write ∧
      ∃ m, (s.write a b).state = { s with mem := m } ∧ (s.mem.wf = true → m.wf = true) := by
  by_cases h : a < 4096
  · rw [write_of_lt s b h]
    exact ⟨trivial, s.mem.set a b, rfl, fun hm => Memory.wf_set hm h⟩
  · rw [write_of_ge s b (Nat.not_lt.mp h)]
    exact ⟨⟨a, rfl⟩, s.mem, rfl, id⟩

/-- Two pieces that change memory only, one after the other, change memory only. -/
theorem andThen_state {f : Flow} {g : State → Flow} {s : State}
    (hf : f.BoundsOnly .write ∧ ∃ m, f.state = { s with mem := m } ∧ (s.mem.wf = true → m.wf = true))
    (hg : ∀ u : State, (g u).BoundsOnly .write ∧
      ∃ m, (g u).state = { u with mem := m } ∧ (u.mem.wf = true → m.wf = true)) :
    (f.andThen g).BoundsOnly .write ∧
      ∃ m, (f.andThen g).state = { s with mem := m } ∧ (s.mem.wf = true → m.wf = true) := by
  cases f with
  | raised c u => exact hf
  | go u =>
    obtain ⟨-, m, hm, hw⟩ := hf
    obtain ⟨hb, m', hm', hw'⟩ := hg u
    simp only [Flow.state] at hm
    subst hm
    exact ⟨hb, m', hm', fun h => hw' (hw h)⟩

theorem storeRegs_state (n k : Nat) (s : State) :
    (storeRegs n k s).BoundsOnly .write ∧
      ∃ m, (storeRegs n k s).state = { s with mem := m } ∧ (s.mem.wf = true → m.wf = true) := by
  induction n generalizing k s with
  | zero => exact ⟨trivial, s.mem, rfl, id⟩
  | succ n ih => exact andThen_state (write_state s _ _) (fun u => ih (k + 1) u)

theorem loadRegs_state (n k : Nat) (s : State) :
    (loadRegs n k s).BoundsOnly .read ∧ ∃ v, (loadRegs n k s).state = { s with v := v } := by
  induction n generalizing k s with
  | zero => exact ⟨trivial, s.v, rfl⟩
  | succ n ih =>
    rw [loadRegs]
    split
    · next b _ =>
      obtain ⟨hb, v, hv⟩ := ih (k + 1) (s.setReg (BitVec.ofNat 4 k) b)
      exact ⟨hb, v, hv⟩
    · exact ⟨⟨_, rfl⟩, s.v, rfl⟩

theorem drawRows_state (x0 y0 n r : Nat) (hit : Bool) (s : State) :
    (drawRows x0 y0 n r hit s).BoundsOnly .read ∧
      ∃ d v, (drawRows x0 y0 n r hit s).state = { s with disp := d, v := v } := by
  induction n generalizing r hit s with
  | zero => exact ⟨trivial, s.disp, (s.setReg vf (collisionFlag hit)).v, rfl⟩
  | succ n ih =>
    rw [drawRows]
    split
    · next b _ =>
      obtain ⟨hb, d, v, h⟩ := ih (r + 1)
        (Canvas.drawByte { disp := s.disp, hit := hit } x0 (y0 + r) b).hit
        { s with disp := (Canvas.drawByte { disp := s.disp, hit := hit } x0 (y0 + r) b).disp }
      exact ⟨hb, d, v, h⟩
    · exact ⟨⟨_, rfl⟩, s.disp, s.v, rfl⟩

/-! ### One case analysis per instruction that can raise -/

/-- `LD B,Vx`: memory, and either the ordinary advance or the fault latch. -/
theorem execLdB_cases {x : Nibble} {s t : State} (h : execLdB x s = .next t) :
    ∃ m, (s.mem.wf = true → m.wf = true) ∧
      (t = State.advance { s with mem := m } ∨
        ∃ a, t = State.takeFatal { s with mem := m } (.memOutOfBounds a .write)) := by
  obtain ⟨hb, m, hm, hw⟩ := andThen_state (write_state s (s.effAddr 0) (hundreds (s.reg x)))
    fun t => andThen_state (write_state t (t.effAddr 1) (tens (s.reg x)))
      fun u => write_state u (u.effAddr 2) (ones (s.reg x))
  refine ⟨m, hw, ?_⟩
  rw [← hm]
  exact finish_cases hb h

/-- `LD [I],Vx`: memory, and either the ordinary advance or the fault latch. -/
theorem execLdMemVx_cases {x : Nibble} {s t : State} (h : execLdMemVx x s = .next t) :
    ∃ m, (s.mem.wf = true → m.wf = true) ∧
      (t = State.advance { s with mem := m } ∨
        ∃ a, t = State.takeFatal { s with mem := m } (.memOutOfBounds a .write)) := by
  obtain ⟨hb, m, hm, hw⟩ := storeRegs_state (x.toNat + 1) 0 s
  refine ⟨m, hw, ?_⟩
  rw [← hm]
  exact finish_cases hb h

/-- `LD Vx,[I]`: registers, and either the ordinary advance or the fault latch. -/
theorem execLdVxMem_cases {x : Nibble} {s t : State} (h : execLdVxMem x s = .next t) :
    ∃ v, t = State.advance { s with v := v } ∨
      ∃ a, t = State.takeFatal { s with v := v } (.memOutOfBounds a .read) := by
  obtain ⟨hb, v, hv⟩ := loadRegs_state (x.toNat + 1) 0 s
  refine ⟨v, ?_⟩
  rw [← hv]
  exact finish_cases hb h

/-- `DRW`: display and registers, and either the ordinary advance or the fault latch. -/
theorem execDrw_cases {x y n : Nibble} {s t : State} (h : execDrw x y n s = .next t) :
    ∃ d v, t = State.advance { s with disp := d, v := v } ∨
      ∃ a, t = State.takeFatal { s with disp := d, v := v } (.memOutOfBounds a .read) := by
  obtain ⟨hb, d, v, hd⟩ := drawRows_state (startCol (s.reg x)) (startRow (s.reg y)) n.toNat 0 false s
  refine ⟨d, v, ?_⟩
  rw [← hd]
  exact finish_cases hb h

/-- `CALL`: the push and the jump, or the fault latch. -/
theorem execCall_cases {nnn : Addr12} {s t : State} (h : execCall nnn s = .next t) :
    (∃ hlt : s.sp < 16, t = State.jumpTo
      { s with stack := s.stack.set s.sp s.pc hlt, sp := s.sp + 1 } (zextAddr nnn)) ∨
      (16 ≤ s.sp ∧ t = s.takeFatal .stackOverflow) := by
  by_cases hlt : s.sp < 16
  · rw [execCall, push_of_lt s s.pc hlt] at h
    exact .inl ⟨hlt, (Host.Outcome.next.inj h).symm⟩
  · rw [execCall, push_of_ge s s.pc (Nat.not_lt.mp hlt)] at h
    exact .inr ⟨Nat.not_lt.mp hlt, (Host.Outcome.next.inj h).symm⟩

/-- `RET`: the pop and the jump, or the fault latch. -/
theorem execRet_cases {s t : State} (h : execRet s = .next t) :
    (s.sp ≠ 0 ∧ t = s.pop.jumpTo (s.slot (s.sp - 1) + 2)) ∨
      (s.sp = 0 ∧ t = s.takeFatal .stackUnderflow) := by
  unfold execRet at h
  split at h
  · next h0 => exact .inr ⟨h0, (Host.Outcome.next.inj h).symm⟩
  · next h0 => exact .inl ⟨h0, (Host.Outcome.next.inj h).symm⟩

/-- A key skip: the skip, or the fault latch. -/
theorem execSkp_cases {x : Nibble} {s t : State} (h : execSkp x s = .next t) :
    (∃ c, t = s.skipIf c) ∨ t = s.takeFatal (.keyIndexRange (s.reg x)) := by
  unfold execSkp at h
  split at h
  · exact .inl ⟨_, (Host.Outcome.next.inj h).symm⟩
  · exact .inr (Host.Outcome.next.inj h).symm

theorem execSknp_cases {x : Nibble} {s t : State} (h : execSknp x s = .next t) :
    (∃ c, t = s.skipIf c) ∨ t = s.takeFatal (.keyIndexRange (s.reg x)) := by
  unfold execSknp at h
  split at h
  · exact .inl ⟨_, (Host.Outcome.next.inj h).symm⟩
  · exact .inr (Host.Outcome.next.inj h).symm

end Sys2Proof.Machine
end

