-- ==== Sys2Proof/Laws/PerInstr.lean ====
section
/-! SUPPORT. The family RowOf: every instruction's word selects a row of the opcode map, and that row
builds the instruction back from the word (R91, R92, R95). One lemma per constructor. -/

namespace Sys2Proof.Laws.RowOf

/-- The word of `i` has the fixed bits of some row of R95, and the row reads every operand of `i`
back from the word. -/
def Statement (i : Instr) : Prop :=
  ∃ row ∈ opcodeTable, row.selects (encode i) = true ∧ row.build (encode i) = i

theorem cls : Statement .cls :=
  ⟨opcodeTable[0]'(by decide), List.getElem_mem _, rfl, rfl⟩

theorem ret : Statement .ret :=
  ⟨opcodeTable[1]'(by decide), List.getElem_mem _, rfl, rfl⟩

theorem jp (nnn : Addr12) : Statement (.jp nnn) :=
  ⟨opcodeTable[2]'(by decide), List.getElem_mem _,
    beq_iff_eq.mpr ((mask_formatA _ _).trans (by decide)),
    congrArg Instr.jp (fieldNNN_formatA _ _)⟩

theorem call (nnn : Addr12) : Statement (.call nnn) :=
  ⟨opcodeTable[3]'(by decide), List.getElem_mem _,
    beq_iff_eq.mpr ((mask_formatA _ _).trans (by decide)),
    congrArg Instr.call (fieldNNN_formatA _ _)⟩

theorem seImm (x : Nibble) (kk : Byte) : Statement (.seImm x kk) :=
  ⟨opcodeTable[4]'(by decide), List.getElem_mem _,
    beq_iff_eq.mpr ((mask_formatI _ _ _).trans (by decide)),
    congrArg₂ Instr.seImm (fieldX_formatI _ _ _) (fieldKK_formatI _ _ _)⟩

theorem seReg (x y : Nibble) : Statement (.seReg x y) :=
  ⟨opcodeTable[5]'(by decide), List.getElem_mem _,
    beq_iff_eq.mpr ((mask_formatR _ _ _ _).trans (by decide)),
    congrArg₂ Instr.seReg (fieldX_formatR _ _ _ _) (fieldY_formatR _ _ _ _)⟩

theorem sneImm (x : Nibble) (kk : Byte) : Statement (.sneImm x kk) :=
  ⟨opcodeTable[6]'(by decide), List.getElem_mem _,
    beq_iff_eq.mpr ((mask_formatI _ _ _).trans (by decide)),
    congrArg₂ Instr.sneImm (fieldX_formatI _ _ _) (fieldKK_formatI _ _ _)⟩

theorem sneReg (x y : Nibble) : Statement (.sneReg x y) :=
  ⟨opcodeTable[7]'(by decide), List.getElem_mem _,
    beq_iff_eq.mpr ((mask_formatR _ _ _ _).trans (by decide)),
    congrArg₂ Instr.sneReg (fieldX_formatR _ _ _ _) (fieldY_formatR _ _ _ _)⟩

theorem ldImm (x : Nibble) (kk : Byte) : Statement (.ldImm x kk) :=
  ⟨opcodeTable[8]'(by decide), List.getElem_mem _,
    beq_iff_eq.mpr ((mask_formatI _ _ _).trans (by decide)),
    congrArg₂ Instr.ldImm (fieldX_formatI _ _ _) (fieldKK_formatI _ _ _)⟩

theorem addImm (x : Nibble) (kk : Byte) : Statement (.addImm x kk) :=
  ⟨opcodeTable[9]'(by decide), List.getElem_mem _,
    beq_iff_eq.mpr ((mask_formatI _ _ _).trans (by decide)),
    congrArg₂ Instr.addImm (fieldX_formatI _ _ _) (fieldKK_formatI _ _ _)⟩

theorem ldReg (x y : Nibble) : Statement (.ldReg x y) :=
  ⟨opcodeTable[10]'(by decide), List.getElem_mem _,
    beq_iff_eq.mpr ((mask_formatR _ _ _ _).trans (by decide)),
    congrArg₂ Instr.ldReg (fieldX_formatR _ _ _ _) (fieldY_formatR _ _ _ _)⟩

theorem orReg (x y : Nibble) : Statement (.orReg x y) :=
  ⟨opcodeTable[11]'(by decide), List.getElem_mem _,
    beq_iff_eq.mpr ((mask_formatR _ _ _ _).trans (by decide)),
    congrArg₂ Instr.orReg (fieldX_formatR _ _ _ _) (fieldY_formatR _ _ _ _)⟩

theorem andReg (x y : Nibble) : Statement (.andReg x y) :=
  ⟨opcodeTable[12]'(by decide), List.getElem_mem _,
    beq_iff_eq.mpr ((mask_formatR _ _ _ _).trans (by decide)),
    congrArg₂ Instr.andReg (fieldX_formatR _ _ _ _) (fieldY_formatR _ _ _ _)⟩

theorem xorReg (x y : Nibble) : Statement (.xorReg x y) :=
  ⟨opcodeTable[13]'(by decide), List.getElem_mem _,
    beq_iff_eq.mpr ((mask_formatR _ _ _ _).trans (by decide)),
    congrArg₂ Instr.xorReg (fieldX_formatR _ _ _ _) (fieldY_formatR _ _ _ _)⟩

theorem addReg (x y : Nibble) : Statement (.addReg x y) :=
  ⟨opcodeTable[14]'(by decide), List.getElem_mem _,
    beq_iff_eq.mpr ((mask_formatR _ _ _ _).trans (by decide)),
    congrArg₂ Instr.addReg (fieldX_formatR _ _ _ _) (fieldY_formatR _ _ _ _)⟩

theorem sub (x y : Nibble) : Statement (.sub x y) :=
  ⟨opcodeTable[15]'(by decide), List.getElem_mem _,
    beq_iff_eq.mpr ((mask_formatR _ _ _ _).trans (by decide)),
    congrArg₂ Instr.sub (fieldX_formatR _ _ _ _) (fieldY_formatR _ _ _ _)⟩

theorem shr (x y : Nibble) : Statement (.shr x y) :=
  ⟨opcodeTable[16]'(by decide), List.getElem_mem _,
    beq_iff_eq.mpr ((mask_formatR _ _ _ _).trans (by decide)),
    congrArg₂ Instr.shr (fieldX_formatR _ _ _ _) (fieldY_formatR _ _ _ _)⟩

theorem subn (x y : Nibble) : Statement (.subn x y) :=
  ⟨opcodeTable[17]'(by decide), List.getElem_mem _,
    beq_iff_eq.mpr ((mask_formatR _ _ _ _).trans (by decide)),
    congrArg₂ Instr.subn (fieldX_formatR _ _ _ _) (fieldY_formatR _ _ _ _)⟩

theorem shl (x y : Nibble) : Statement (.shl x y) :=
  ⟨opcodeTable[18]'(by decide), List.getElem_mem _,
    beq_iff_eq.mpr ((mask_formatR _ _ _ _).trans (by decide)),
    congrArg₂ Instr.shl (fieldX_formatR _ _ _ _) (fieldY_formatR _ _ _ _)⟩

theorem ldI (nnn : Addr12) : Statement (.ldI nnn) :=
  ⟨opcodeTable[19]'(by decide), List.getElem_mem _,
    beq_iff_eq.mpr ((mask_formatA _ _).trans (by decide)),
    congrArg Instr.ldI (fieldNNN_formatA _ _)⟩

theorem jpV0 (nnn : Addr12) : Statement (.jpV0 nnn) :=
  ⟨opcodeTable[20]'(by decide), List.getElem_mem _,
    beq_iff_eq.mpr ((mask_formatA _ _).trans (by decide)),
    congrArg Instr.jpV0 (fieldNNN_formatA _ _)⟩

theorem rnd (x : Nibble) (kk : Byte) : Statement (.rnd x kk) :=
  ⟨opcodeTable[21]'(by decide), List.getElem_mem _,
    beq_iff_eq.mpr ((mask_formatI _ _ _).trans (by decide)),
    congrArg₂ Instr.rnd (fieldX_formatI _ _ _) (fieldKK_formatI _ _ _)⟩

theorem drw (x y n : Nibble) : Statement (.drw x y n) :=
  ⟨opcodeTable[22]'(by decide), List.getElem_mem _,
    beq_iff_eq.mpr ((mask_formatD _ _ _ _).trans (by decide)),
    by
      show Instr.drw (fieldX _) (fieldY _) (fieldN _) = _
      rw [encode, fieldX_formatR, fieldY_formatR, fieldN_formatR]⟩

theorem skp (x : Nibble) : Statement (.skp x) :=
  ⟨opcodeTable[23]'(by decide), List.getElem_mem _,
    beq_iff_eq.mpr ((mask_formatX _ _ _).trans (by decide)),
    congrArg Instr.skp (fieldX_formatI _ _ _)⟩

theorem sknp (x : Nibble) : Statement (.sknp x) :=
  ⟨opcodeTable[24]'(by decide), List.getElem_mem _,
    beq_iff_eq.mpr ((mask_formatX _ _ _).trans (by decide)),
    congrArg Instr.sknp (fieldX_formatI _ _ _)⟩

theorem ldVxDT (x : Nibble) : Statement (.ldVxDT x) :=
  ⟨opcodeTable[25]'(by decide), List.getElem_mem _,
    beq_iff_eq.mpr ((mask_formatX _ _ _).trans (by decide)),
    congrArg Instr.ldVxDT (fieldX_formatI _ _ _)⟩

theorem ldDTVx (x : Nibble) : Statement (.ldDTVx x) :=
  ⟨opcodeTable[26]'(by decide), List.getElem_mem _,
    beq_iff_eq.mpr ((mask_formatX _ _ _).trans (by decide)),
    congrArg Instr.ldDTVx (fieldX_formatI _ _ _)⟩

theorem ldSTVx (x : Nibble) : Statement (.ldSTVx x) :=
  ⟨opcodeTable[27]'(by decide), List.getElem_mem _,
    beq_iff_eq.mpr ((mask_formatX _ _ _).trans (by decide)),
    congrArg Instr.ldSTVx (fieldX_formatI _ _ _)⟩

theorem ldVxK (x : Nibble) : Statement (.ldVxK x) :=
  ⟨opcodeTable[28]'(by decide), List.getElem_mem _,
    beq_iff_eq.mpr ((mask_formatX _ _ _).trans (by decide)),
    congrArg Instr.ldVxK (fieldX_formatI _ _ _)⟩

theorem addI (x : Nibble) : Statement (.addI x) :=
  ⟨opcodeTable[29]'(by decide), List.getElem_mem _,
    beq_iff_eq.mpr ((mask_formatX _ _ _).trans (by decide)),
    congrArg Instr.addI (fieldX_formatI _ _ _)⟩

theorem ldF (x : Nibble) : Statement (.ldF x) :=
  ⟨opcodeTable[30]'(by decide), List.getElem_mem _,
    beq_iff_eq.mpr ((mask_formatX _ _ _).trans (by decide)),
    congrArg Instr.ldF (fieldX_formatI _ _ _)⟩

theorem ldB (x : Nibble) : Statement (.ldB x) :=
  ⟨opcodeTable[31]'(by decide), List.getElem_mem _,
    beq_iff_eq.mpr ((mask_formatX _ _ _).trans (by decide)),
    congrArg Instr.ldB (fieldX_formatI _ _ _)⟩

theorem ldMemVx (x : Nibble) : Statement (.ldMemVx x) :=
  ⟨opcodeTable[32]'(by decide), List.getElem_mem _,
    beq_iff_eq.mpr ((mask_formatX _ _ _).trans (by decide)),
    congrArg Instr.ldMemVx (fieldX_formatI _ _ _)⟩

theorem ldVxMem (x : Nibble) : Statement (.ldVxMem x) :=
  ⟨opcodeTable[33]'(by decide), List.getElem_mem _,
    beq_iff_eq.mpr ((mask_formatX _ _ _).trans (by decide)),
    congrArg Instr.ldVxMem (fieldX_formatI _ _ _)⟩

end Sys2Proof.Laws.RowOf
end

