-- ==== Sys2Proof/Tests/Slice0.lean ====
section
/-! SUPPORT. Tests of one step each, with the vectors of spec/95_test_vectors.md (T, A, I, D, K, L rows;
E for the examples of the source), the smoke test of WellFormed, decode tests with words written out
from spec/30_encoding.md, and one witness theorem for every obligation that has hypotheses. -/

namespace Sys2Proof.Tests

open Sys2Proof Sys2Proof.Machine

/-! ### Small states -/

/-- The reset state with no key event and the byte 0 on the random port in the coming cycle. -/
def base : State := { State.reset with inputs := [{ events := [], rand := 0 }] }

/-- `base` with two registers set. -/
def regs2 (x y : Nibble) (a b : Byte) : State := (base.setReg x a).setReg y b

/-- `base` with bytes placed at an address. -/
def withBytes (a : Nat) (bytes : List Byte) (s : State) : State :=
  { s with mem := s.mem.place a bytes }

/-- The next state, where there is one. -/
def nextOf (o : Outcome) : Option State :=
  match o with
  | .next t => some t
  | .fault _ => none
  | .refused _ => none

/-- The state after one cycle that runs the word `w` at `pc`. -/
def run1 (w : Nat) (s : State) : Option State := nextOf (step (s.withFetchWord 16 w))

/-- The cause recorded after one cycle that runs the word `w` at `pc`. -/
def cause1 (w : Nat) (s : State) : Option Cause := (run1 w s).bind (·.fault)

/-- Result register, flag register and `pc` after one cycle. -/
def regFlagPc (w : Nat) (x : Nibble) (s : State) : Option (Byte × Byte × Word) :=
  (run1 w s).map fun t => (t.reg x, t.reg vf, t.pc)

/-- `pc` after one cycle. -/
def pcAfter (w : Nat) (s : State) : Option Word := (run1 w s).map (·.pc)

/-- Whether an outcome is a next state with a property. -/
def nextHas (p : State → Bool) (o : Outcome) : Bool :=
  match o with
  | .next t => p t
  | .fault _ => false
  | .refused _ => false

theorem exists_next {p : State → Bool} {o : Outcome} (h : nextHas p o = true) :
    ∃ t, o = .next t ∧ p t = true := by
  cases o with
  | next t => exact ⟨t, rfl, h⟩
  | fault r => cases h
  | refused r => cases h

/-! ### WellFormed: the term the check refuses, and the words that are no instruction -/

/-- U18, L3: an image of 3585 bytes is refused, one of 3584 is not, nor is the empty one (L1). -/
theorem test_programFits : programFits (List.replicate 3585 0) = false ∧
    programFits (List.replicate 3584 0) = true ∧ programFits [] = true := by
  decide +kernel

/-- T24 to T32: the ill-formed words are refused by name. -/
theorem test_unmapped_words_refused :
    [0x5121, 0x0000, 0x00E1, 0x8AB8, 0xE19F, 0xF100, 0x9121, 0x0123, 0x800F].all (fun op =>
      match decode op with
      | .error (.unmapped w) => w == op
      | .error .truncated => false
      | .ok _ => false) = true := by decide

/-- Fewer than two bytes are refused by name. -/
theorem test_truncated_refused : decodeBytes [0x13] = .error .truncated := rfl

/-! ### Decode: one word per constructor, its nibbles written out from the patterns of R95 -/

theorem test_decode_flow : decode 0x00E0 = .ok .cls ∧ decode 0x00EE = .ok .ret ∧
    decode 0x1ABC = .ok (.jp 0xABC) ∧ decode 0x2ABC = .ok (.call 0xABC) ∧
    decode 0x3A5C = .ok (.seImm 0xA 0x5C) ∧ decode 0x5AB0 = .ok (.seReg 0xA 0xB) ∧
    decode 0x4A5C = .ok (.sneImm 0xA 0x5C) ∧ decode 0x9AB0 = .ok (.sneReg 0xA 0xB) ∧
    decode 0xBABC = .ok (.jpV0 0xABC) := by
  refine ⟨?_, ?_, ?_, ?_, ?_, ?_, ?_, ?_, ?_⟩ <;> rfl

theorem test_decode_alu : decode 0x6A5C = .ok (.ldImm 0xA 0x5C) ∧
    decode 0x7A5C = .ok (.addImm 0xA 0x5C) ∧ decode 0x8AB0 = .ok (.ldReg 0xA 0xB) ∧
    decode 0x8AB1 = .ok (.orReg 0xA 0xB) ∧ decode 0x8AB2 = .ok (.andReg 0xA 0xB) ∧
    decode 0x8AB3 = .ok (.xorReg 0xA 0xB) ∧ decode 0x8AB4 = .ok (.addReg 0xA 0xB) ∧
    decode 0x8AB5 = .ok (.sub 0xA 0xB) ∧ decode 0x8AB6 = .ok (.shr 0xA 0xB) ∧
    decode 0x8AB7 = .ok (.subn 0xA 0xB) ∧ decode 0x8ABE = .ok (.shl 0xA 0xB) ∧
    decode 0xCA5C = .ok (.rnd 0xA 0x5C) := by
  refine ⟨?_, ?_, ?_, ?_, ?_, ?_, ?_, ?_, ?_, ?_, ?_, ?_⟩ <;> rfl

theorem test_decode_index_display : decode 0xAABC = .ok (.ldI 0xABC) ∧
    decode 0xDAB7 = .ok (.drw 0xA 0xB 7) ∧ decode 0xFA1E = .ok (.addI 0xA) ∧
    decode 0xFA29 = .ok (.ldF 0xA) ∧ decode 0xFA33 = .ok (.ldB 0xA) ∧
    decode 0xFA55 = .ok (.ldMemVx 0xA) ∧ decode 0xFA65 = .ok (.ldVxMem 0xA) := by
  refine ⟨?_, ?_, ?_, ?_, ?_, ?_, ?_⟩ <;> rfl

theorem test_decode_input_timers : decode 0xEA9E = .ok (.skp 0xA) ∧
    decode 0xEAA1 = .ok (.sknp 0xA) ∧ decode 0xFA07 = .ok (.ldVxDT 0xA) ∧
    decode 0xFA15 = .ok (.ldDTVx 0xA) ∧ decode 0xFA18 = .ok (.ldSTVx 0xA) ∧
    decode 0xFA0A = .ok (.ldVxK 0xA) := by
  refine ⟨?_, ?_, ?_, ?_, ?_, ?_⟩ <;> rfl

/-- R100: `JP 0x300` is the bytes `13 00`; the host's numbering gives the same instruction. -/
theorem test_decode_bytes : decodeBytes [0x13, 0x00, 0xFF] = .ok (.jp 0x300, [0xFF]) ∧
    decodeTableWord 16 0x1300 = some (.jp 0x300) ∧ decodeTableWord 16 0x8AB8 = none := by
  refine ⟨rfl, rfl, rfl⟩

/-! ### Control transfer (T rows) -/

/-- T1, T3, T4 (E8). -/
theorem test_jp : pcAfter 0x1300 base = some 0x300 ∧ pcAfter 0x1201 base = some 0x201 ∧
    pcAfter 0x1000 base = some 0 := by decide

/-- T5, T6. -/
theorem test_call :
    (run1 0x2400 { base with pc := 0x204 }).map (fun t => (t.pc, t.sp, t.slot 0)) =
      some (0x400, 1, 0x204) ∧
    (run1 0x2400 { base with sp := 15 }).map (fun t => (t.pc, t.sp, t.slot 15)) =
      some (0x400, 16, 0x200) := by decide

/-- T7. -/
theorem test_call_overflow : cause1 0x2400 { base with sp := 16 } = some .stackOverflow := by
  decide

/-- T8. -/
theorem test_ret :
    (run1 0x00EE { base with pc := 0x40C, sp := 1, stack := base.stack.set 0 0x204 }).map
      (fun t => (t.pc, t.sp, t.slot 0)) = some (0x206, 0, 0x204) := by decide

/-- T9. -/
theorem test_ret_underflow : cause1 0x00EE base = some .stackUnderflow := by decide

/-- T10, T11, T21. -/
theorem test_se_imm : pcAfter 0x332A (base.setReg 3 0x2A) = some 0x204 ∧
    pcAfter 0x332A (base.setReg 3 0x2B) = some 0x202 ∧
    pcAfter 0x3000 { base with pc := 0xFFC } = some 0x1000 := by decide

/-- T12, T13. -/
theorem test_sne_imm : pcAfter 0x432A (base.setReg 3 0x2A) = some 0x202 ∧
    pcAfter 0x432A (base.setReg 3 0x2B) = some 0x204 := by decide

/-- T14, T15, T16. -/
theorem test_se_reg : pcAfter 0x5120 (regs2 1 2 7 7) = some 0x204 ∧
    pcAfter 0x5120 (regs2 1 2 7 8) = some 0x202 ∧ pcAfter 0x5330 base = some 0x204 := by
  decide

/-- T17, T18. -/
theorem test_sne_reg : pcAfter 0x9120 (regs2 1 2 7 8) = some 0x204 ∧
    pcAfter 0x9120 (regs2 1 2 7 7) = some 0x202 := by decide

/-- T19, T20. -/
theorem test_jp_v0 : pcAfter 0xB300 (base.setReg 0 4) = some 0x304 ∧
    pcAfter 0xBFFF (base.setReg 0 0xFF) = some 0x10FE := by decide

/-- T22, T22b: the fetch bound is 4095. -/
theorem test_fetch_bound :
    (nextOf (step { base with pc := 0xFFF })).bind (·.fault) = some (.memOutOfBounds 0xFFF .fetch) ∧
    (nextOf (step { base with pc := 0x1000 })).bind (·.fault) =
      some (.memOutOfBounds 0x1000 .fetch) := by decide

/-- T25, T27: zeroed memory is not a no-op. -/
theorem test_decode_error : cause1 0x0000 base = some (.decodeError 0) ∧
    cause1 0x8AB8 base = some (.decodeError 0x8AB8) := by decide

/-! ### Registers (A rows) -/

/-- A1, T23. -/
theorem test_ld_imm : regFlagPc 0x632A 3 base = some (0x2A, 0, 0x202) ∧
    pcAfter 0x6000 { base with pc := 0xFFE } = some 0x1000 := by decide

/-- A3, A5. -/
theorem test_add_imm : regFlagPc 0x7102 1 (regs2 1 15 0xFF 1) = some (1, 1, 0x202) ∧
    regFlagPc 0x7FFF 15 (base.setReg 15 1) = some (0, 0, 0x202) := by decide

/-- A6. -/
theorem test_ld_reg : regFlagPc 0x8120 1 (base.setReg 2 9) = some (9, 0, 0x202) := by decide

/-- A7: `VF` is left alone. -/
theorem test_or : regFlagPc 0x8121 1 ((regs2 1 2 0xF0 0x0F).setReg 15 1) = some (0xFF, 1, 0x202) := by
  decide

/-- A8. -/
theorem test_and : regFlagPc 0x8122 1 (regs2 1 2 0xF0 0x3C) = some (0x30, 0, 0x202) := by
  decide

/-- A9, A10. -/
theorem test_xor : regFlagPc 0x8123 1 (regs2 1 2 0xF0 0x3C) = some (0xCC, 0, 0x202) ∧
    regFlagPc 0x8113 1 (base.setReg 1 0xF0) = some (0, 0, 0x202) := by decide

/-- A11, A13, A14. -/
theorem test_add_reg : regFlagPc 0x8124 1 (regs2 1 2 0xC8 0x64) = some (0x2C, 1, 0x202) ∧
    regFlagPc 0x8124 1 (regs2 1 2 0xFF 0xFF) = some (0xFE, 1, 0x202) ∧
    regFlagPc 0x8124 1 ((regs2 1 2 0x7F 0x80).setReg 15 1) = some (0xFF, 0, 0x202) := by
  decide

/-- A15, A16, A17: the same register twice, `x = 15`, `y = 15`. -/
theorem test_add_reg_aliases : regFlagPc 0x8114 1 (base.setReg 1 0x81) = some (2, 1, 0x202) ∧
    regFlagPc 0x8F14 15 (regs2 15 1 0xF0 0x20) = some (0x10, 0x10, 0x202) ∧
    regFlagPc 0x81F4 1 (regs2 1 15 5 1) = some (6, 0, 0x202) := by decide

/-- A18, A19, A20, A22. -/
theorem test_sub : regFlagPc 0x8125 1 (regs2 1 2 5 7) = some (0xFE, 0, 0x202) ∧
    regFlagPc 0x8125 1 (regs2 1 2 7 5) = some (2, 1, 0x202) ∧
    regFlagPc 0x8125 1 ((regs2 1 2 7 7).setReg 15 1) = some (0, 0, 0x202) ∧
    regFlagPc 0x8F15 15 (regs2 15 1 9 4) = some (5, 5, 0x202) := by decide

/-- A26, A27, A30, A31. -/
theorem test_shr : regFlagPc 0x8126 1 (base.setReg 1 5) = some (2, 1, 0x202) ∧
    regFlagPc 0x81F6 1 (regs2 1 15 5 0xAA) = some (2, 1, 0x202) ∧
    regFlagPc 0x8126 1 (base.setReg 1 0xFE) = some (0x7F, 0, 0x202) ∧
    regFlagPc 0x8F06 15 (base.setReg 15 7) = some (3, 3, 0x202) := by decide

/-- A23, A24, A25. -/
theorem test_subn : regFlagPc 0x8127 1 (regs2 1 2 5 7) = some (2, 1, 0x202) ∧
    regFlagPc 0x8127 1 (regs2 1 2 7 5) = some (0xFE, 0, 0x202) ∧
    regFlagPc 0x8127 1 ((regs2 1 2 7 7).setReg 15 1) = some (0, 0, 0x202) := by decide

/-- A32, A33, A34, A35: the flag is not the bit shifted out. -/
theorem test_shl : regFlagPc 0x812E 1 (base.setReg 1 9) = some (0x12, 1, 0x202) ∧
    regFlagPc 0x812E 1 (regs2 1 15 0x80 1) = some (0, 0, 0x202) ∧
    regFlagPc 0x812E 1 (base.setReg 1 1) = some (2, 1, 0x202) ∧
    regFlagPc 0x812E 1 (base.setReg 1 0xFF) = some (0xFE, 0, 0x202) := by decide

/-- A37, A39. -/
theorem test_shl_corners : regFlagPc 0x812E 1 (base.setReg 1 0xF9) = some (0xF2, 1, 0x202) ∧
    regFlagPc 0x8F0E 15 (base.setReg 15 1) = some (2, 2, 0x202) := by decide

/-- A41, A42. -/
theorem test_rnd :
    regFlagPc 0xC30F 3 { base with inputs := [{ events := [], rand := 0xB7 }] } =
      some (7, 0, 0x202) ∧
    regFlagPc 0xC300 3 { base.setReg 3 0x55 with inputs := [{ events := [], rand := 0xFF }] } =
      some (0, 0, 0x202) := by decide

/-! ### Index register and memory (I rows) -/

/-- I2. -/
theorem test_ld_i : (run1 0xAFFF base).map (fun t => (t.i, t.pc)) = some (0xFFF, 0x202) := by
  decide

/-- I3, I4, I5. -/
theorem test_add_i :
    (run1 0xF21E { base.setReg 2 2 with i := 0xFFF }).map (·.i) = some 0x1001 ∧
    (run1 0xF21E { base.setReg 2 2 with i := 0xFFFF }).map (·.i) = some 1 ∧
    (run1 0xFF1E { base.setReg 15 1 with i := 0x100 }).map (fun t => (t.i, t.reg 15)) =
      some (0x101, 1) := by decide

/-- I6, I7, I8. -/
theorem test_ld_f : (run1 0xF029 (base.setReg 0 0xA)).map (·.i) = some 0x32 ∧
    (run1 0xF029 (base.setReg 0 0xFF)).map (·.i) = some 0x4FB ∧
    (run1 0xF029 (base.setReg 0 0x10)).map (·.i) = some 0x50 := by decide

/-- I9, I13. -/
theorem test_ld_b :
    (run1 0xF333 { base.setReg 3 0x9C with i := 0x300 }).map
      (fun t => (t.mem.byte 0x300, t.mem.byte 0x301, t.mem.byte 0x302)) = some (1, 5, 6) ∧
    (run1 0xF333 { base.setReg 3 0x7B with i := 0xFFD }).map
      (fun t => (t.mem.byte 0xFFD, t.mem.byte 0xFFE, t.mem.byte 0xFFF)) = some (1, 2, 3) := by
  decide

/-- I14. -/
theorem test_ld_b_out_of_bounds :
    cause1 0xF333 { base.setReg 3 0x7B with i := 0xFFE } = some (.memOutOfBounds 0x1000 .write) := by
  decide

/-- I15, I16. -/
theorem test_store_regs :
    (run1 0xF155 { (regs2 0 1 0x11 0x22).setReg 2 0x33 with i := 0x400 }).map
      (fun t => (t.mem.byte 0x400, t.mem.byte 0x401, t.mem.byte 0x402, t.i)) =
      some (0x11, 0x22, 0, 0x400) ∧
    (run1 0xF055 { base.setReg 0 0x11 with i := 0xFFF }).map (fun t => t.mem.byte 0xFFF) =
      some 0x11 := by decide

/-- I17, I18. -/
theorem test_store_regs_out_of_bounds :
    cause1 0xF155 { regs2 0 1 0x11 0x22 with i := 0xFFF } = some (.memOutOfBounds 0x1000 .write) ∧
    cause1 0xF055 { base with i := 0x1000 } = some (.memOutOfBounds 0x1000 .write) := by
  decide

/-- I19, I20. -/
theorem test_load_regs :
    (run1 0xF165 (withBytes 0x400 [0xAA, 0xBB, 0xCC] { base.setReg 2 0x77 with i := 0x400 })).map
      (fun t => (t.reg 0, t.reg 1, t.reg 2, t.i)) = some (0xAA, 0xBB, 0x77, 0x400) ∧
    (run1 0xF265 base).map (fun t => (t.reg 0, t.reg 1, t.reg 2)) = some (0xF0, 0x90, 0x90) := by
  decide

/-- I21. -/
theorem test_load_regs_out_of_bounds :
    cause1 0xF165 { base with i := 0xFFF } = some (.memOutOfBounds 0x1000 .read) := by decide

/-! ### Display (D rows) -/

/-- A state with sprite bytes at 0x300 and `I` pointing at them. -/
def sprite (bytes : List Byte) : State := withBytes 0x300 bytes { base with i := 0x300 }

/-- `VF` and the named cells after one cycle. -/
def drawn (w : Nat) (cells : List Nat) (s : State) : Option (Byte × List Bool) :=
  (run1 w s).map fun t => (t.reg vf, cells.map (Display.cellAt t.disp))

/-- D3. -/
theorem test_cls :
    (run1 0x00E0 { base with disp := Vector.replicate 32 0xFFFFFFFFFFFFFFFF }).map
      (fun t => (t.disp, t.pc)) = some (Display.clear, 0x202) := by decide

/-- D4, D7, D10, D16, D18: clipping at both edges, no row, `x = 15`, the lowest bit. -/
theorem test_drw :
    drawn 0xD121 [59, 60, 63, 64] ((sprite [0xFF]).setReg 1 0x3C) =
      some (0, [false, true, true, false]) ∧
    drawn 0xD123 [1920, 1984, 0] ((sprite [0x80, 0x80, 0x80]).setReg 2 0x1E) =
      some (0, [true, true, false]) ∧
    drawn 0xD120 [0] ((base.setReg 15 1).setI 0x1234) = some (0, [false]) ∧
    drawn 0xDF01 [0, 5] ((sprite [0x80]).setReg 15 5) = some (0, [false, true]) ∧
    drawn 0xD011 [0, 7] (sprite [0x01]) = some (0, [false, true]) := by decide

/-- D2, D13, D14: the collision flag. -/
theorem test_drw_collision :
    drawn 0xD011 [0] { sprite [0x80] with disp := Display.flip Display.clear 0 0 } =
      some (1, [false]) ∧
    drawn 0xD121 [63] { (sprite [0x0F]).setReg 1 0x3C with disp := Display.flip Display.clear 63 0 } =
      some (0, [true]) ∧
    drawn 0xD121 [0, 1] { sprite [0xC0] with disp := Display.flip Display.clear 1 0 } =
      some (1, [true, false]) := by decide

/-! ### Keypad, timers, gate (K rows) -/

/-- `base` with keys down. -/
def keysDown (key : BitVec 16) : State := { base with key := key }

/-- K1, K2, K7. -/
theorem test_skp : pcAfter 0xE49E ((keysDown 0x400).setReg 4 0xA) = some 0x204 ∧
    pcAfter 0xE49E (base.setReg 4 0xA) = some 0x202 ∧
    pcAfter 0xE49E { base.setReg 4 0xA with
      inputs := [{ events := [{ key := 10, pressed := true }], rand := 0 }] } = some 0x204 := by
  decide

/-- K5. -/
theorem test_skp_absent_key : cause1 0xE49E (base.setReg 4 0x10) = some (.keyIndexRange 16) := by
  decide

/-- K3, K4. -/
theorem test_sknp : pcAfter 0xE4A1 ((keysDown 0x400).setReg 4 0xA) = some 0x202 ∧
    pcAfter 0xE4A1 (base.setReg 4 0xA) = some 0x204 := by decide

/-- K6. -/
theorem test_sknp_absent_key : cause1 0xE4A1 (base.setReg 4 0xFF) = some (.keyIndexRange 255) := by
  decide

/-- K9, K14: no key, the instruction repeats and the gate still opens. -/
theorem test_key_wait_idle :
    (run1 0xF30A { base.setReg 3 0x55 with tick := 9, dt := 2 }).map
      (fun t => (t.pc, t.reg 3, t.dt, t.tick)) = some (0x200, 0x55, 1, 0) := by decide

/-- K10, K11: one key, so no choice. -/
theorem test_key_wait_pressed :
    (run1 0xF30A ((keysDown 0x80).setReg 3 0x55)).map (fun t => (t.pc, t.reg 3)) =
      some (0x202, 7) ∧
    (run1 0xF30A ((keysDown 1).setReg 3 0x55)).map (fun t => (t.pc, t.reg 3)) = some (0x202, 0) := by
  decide

/-- K16. -/
theorem test_ld_vx_dt : (run1 0xF207 { base with dt := 60, tick := 9 }).map
    (fun t => (t.reg 2, t.dt, t.tick)) = some (60, 59, 0) := by decide

/-- K18, K19. -/
theorem test_ld_dt_vx :
    (run1 0xF215 { base.setReg 2 5 with tick := 9 }).map (fun t => (t.dt, t.tick)) = some (4, 0) ∧
    (run1 0xF215 { base with dt := 9, tick := 9 }).map (fun t => (t.dt, t.tick)) = some (0, 0) := by
  decide

/-- K20, K21. -/
theorem test_ld_st_vx : (run1 0xF218 (base.setReg 2 2)).map (·.st) = some 2 ∧
    (run1 0xF218 { base.setReg 2 1 with tick := 9 }).map (fun t => (t.st, t.out.map (·.stOut))) =
      some (0, some 0) := by decide

/-- K22, K23: the timers are independent, the ninth count opens nothing. -/
theorem test_gate :
    (run1 0x00E0 { base with st := 3, tick := 9 }).map (fun t => (t.dt, t.st, t.tick)) =
      some (0, 2, 0) ∧
    (run1 0x00E0 { base with dt := 255, st := 1, tick := 8 }).map (fun t => (t.dt, t.st, t.tick)) =
      some (255, 1, 9) := by decide

/-! ### Load and reset (L rows) -/

/-- L4. -/
theorem test_load :
    (nextOf (State.reset.load [0x12, 0x34])).map (fun t =>
      [0x1FF, 0x200, 0x201, 0x202, 0x000, 0x04F, 0x050].map t.mem.byte) =
      some [0, 0x12, 0x34, 0, 0xF0, 0x80, 0] := by decide

/-- R63: another font is another reset memory, and the bytes after it are 0. -/
theorem test_reset_with_another_font :
    [0, 79, 80, 0x200].map (State.resetWith (Vector.replicate 80 0xAA)).mem.byte =
      [0xAA, 0xAA, 0, 0] := by decide +kernel

/-- L3. -/
theorem test_load_too_large :
    (nextOf (State.reset.load (List.replicate 3585 0))).bind (·.fault) =
      some (.loadTooLarge 3585) := by decide +kernel

/-! ### Witnesses: a concrete state and operands that meet the hypotheses of each obligation -/

/-- `base` with the word `w` at `pc`. -/
def running (w : Nat) : State := base.withFetchWord 16 w

/-- `running` in a gate cycle. -/
def gateAt (w : Nat) : State := { running w with tick := 9 }

/-- A halted state. -/
def stopped : State := State.takeFatal base .stackUnderflow

theorem test_witness_DecodeOfEncodeIsIdentity : (Instr.drw 15 15 15).wellFormed = true := rfl

theorem test_witness_EncodeOfDecodeIsIdentity : decode 0xDFFF = .ok (.drw 15 15 15) := rfl

theorem test_witness_LoadPlacesTheProgram :
    (List.replicate 3584 (0x12 : Byte)).length ≤ 3584 ∧ ([] : List Byte).length ≤ 3584 :=
  ⟨List.length_replicate.le, Nat.zero_le _⟩

theorem test_witness_TooLargeProgramNeverRuns :
    3584 < (List.replicate 3585 (0x12 : Byte)).length := by
  rw [List.length_replicate]; omega

/-- Both clauses at the boundary. -/
theorem test_witness_FetchIsBigEndianAndBounded :
    (State.pc { base with pc := 4094 }).toNat < 4095 ∧
    4095 ≤ (State.pc { base with pc := 4095 }).toNat := by decide

theorem test_witness_PlacedWordIsFetched :
    (State.pc { base with pc := 4094 }).toNat < 4095 ∧ 65535 < 65536 := by decide

/-- The clause of a completed cycle. -/
theorem test_witness_StepRunsTheDecodedInstruction :
    (running 0x1300).halted = false ∧ (running 0x1300).pc.toNat < 4095 ∧
    decode (wordOfBytes ((running 0x1300).mem.byte (running 0x1300).pc.toNat)
      ((running 0x1300).mem.byte ((running 0x1300).pc.toNat + 1))) = .ok (.jp 0x300) ∧
    ∃ t, exec (.jp 0x300) (running 0x1300).pollInput = .next t ∧ t.halted = false :=
  ⟨rfl, by decide, rfl, _, rfl, rfl⟩

/-- The clause of an instruction that raises. -/
theorem test_witness_StepRunsTheDecodedInstruction_raises :
    (running 0x00EE).halted = false ∧ (running 0x00EE).pc.toNat < 4095 ∧
    decode (wordOfBytes ((running 0x00EE).mem.byte (running 0x00EE).pc.toNat)
      ((running 0x00EE).mem.byte ((running 0x00EE).pc.toNat + 1))) = .ok .ret ∧
    ∃ t, exec .ret (running 0x00EE).pollInput = .next t ∧ t.halted = true :=
  ⟨rfl, by decide, rfl, _, rfl, rfl⟩

theorem test_witness_FetchOutOfBoundsHalts :
    State.halted { base with pc := 4095 } = false ∧ 4095 ≤ (State.pc { base with pc := 4095 }).toNat := by
  decide

theorem test_witness_UnmappedWordHalts :
    base.halted = false ∧ base.fetchWord = some 0 ∧ decode 0 = .error (.unmapped 0) :=
  ⟨rfl, by decide, rfl⟩

theorem test_witness_HaltedMachineHasNoStep : stopped.halted = true := rfl

theorem test_witness_RunningMachineAlwaysSteps : base.halted = false := rfl

/-- The gate cycle; the other clause is at `tick = 0`. -/
theorem test_witness_TimerGateOpensEveryTenthCycle :
    (gateAt 0x1300).halted = false ∧ (gateAt 0x1300).tick < 10 ∧
    (gateAt 0x1300).pollInput.fetchDecode = .ok (.jp 0x300) ∧
    ∃ t, exec (.jp 0x300) (gateAt 0x1300).pollInput = .next t ∧ t.halted = false :=
  ⟨rfl, by decide, rfl, _, rfl, rfl⟩

theorem test_witness_TimerGateOpensEveryTenthCycle_closed :
    (running 0x1300).halted = false ∧ (running 0x1300).tick < 10 ∧
    (running 0x1300).pollInput.fetchDecode = .ok (.jp 0x300) ∧
    ∃ t, exec (.jp 0x300) (running 0x1300).pollInput = .next t ∧ t.halted = false :=
  ⟨rfl, by decide, rfl, _, rfl, rfl⟩

/-- Both clauses: a completed cycle and one that raises. -/
theorem test_witness_CompletedCyclePublishesItsEnd :
    (∃ t, step (running 0x1300) = .next t ∧ (!t.halted) = true) ∧
    ∃ t, step base = .next t ∧ t.halted = true :=
  ⟨exists_next (p := fun t => !t.halted) (by decide), exists_next (p := (·.halted)) (by decide)⟩

/-- From the count 9, so that the gate is crossed. -/
theorem test_witness_TickCountsCompletedCycles :
    (gateAt 0x1200).tick < 10 ∧ ∃ t, runFor 1 (gateAt 0x1200) = .next t ∧ (!t.halted) = true :=
  ⟨by decide, exists_next (p := fun t => !t.halted) (by decide)⟩

theorem test_witness_SpinningMachineCountsDown :
    (gateAt 0x1200).halted = false ∧ (gateAt 0x1200).tick < 10 ∧ (gateAt 0x1200).spinsAtJump :=
  ⟨rfl, by decide, 0x200, rfl, by decide⟩

/-- A state at every bound of the invariant. -/
def brim : State := { gateAt 0x1200 with sp := 16 }

theorem test_witness_StepKeepsTheInvariant :
    brim.Inv ∧ ∃ t, step brim = .next t ∧ (!t.halted) = true :=
  ⟨⟨by decide, by decide, by decide, by decide⟩, exists_next (p := fun t => !t.halted) (by decide)⟩

/-- A state at every bound: 16 slots of 4094, the largest `pc`. -/
def pcBrim : State := { base with sp := 16, stack := Vector.replicate 16 4094, pc := 0x10FE }

theorem test_witness_StepKeepsPcBounded :
    pcBrim.PcBounded ∧ ∃ t, step pcBrim = .next t ∧ t.halted = true :=
  ⟨⟨by decide, by decide, by decide⟩, exists_next (p := (·.halted)) (by decide)⟩

/-- A jump is none of the writers of any clause. -/
theorem test_witness_MemoryDisplayStackHaveTheirWriters :
    (∃ t, exec (.jp 0x300) base = .next t ∧ t.halted = false) ∧
    (∀ x, Instr.jp 0x300 ≠ .ldB x ∧ Instr.jp 0x300 ≠ .ldMemVx x) ∧
    (Instr.jp 0x300 ≠ .cls ∧ ∀ x y n, Instr.jp 0x300 ≠ .drw x y n) ∧
    (Instr.jp 0x300 ≠ .ret ∧ ∀ nnn, Instr.jp 0x300 ≠ .call nnn) := by
  refine ⟨⟨_, rfl, rfl⟩, ?_, ?_, ?_⟩ <;> simp

theorem test_witness_IndexTimersLatchHaveTheirWriters :
    (∃ t, exec (.jp 0x300) base = .next t ∧ t.halted = false) ∧
    (∀ nnn x, Instr.jp 0x300 ≠ .ldI nnn ∧ Instr.jp 0x300 ≠ .addI x ∧ Instr.jp 0x300 ≠ .ldF x) ∧
    (∀ x, Instr.jp 0x300 ≠ .ldDTVx x) ∧ ∀ x, Instr.jp 0x300 ≠ .ldSTVx x := by
  refine ⟨⟨_, rfl, rfl⟩, ?_, ?_, ?_⟩ <;> simp

/-- `VF` under an instruction that names register 1 and writes no flag. -/
theorem test_witness_RegistersChangeOnlyWhereNamed :
    (∃ t, exec (.addImm 1 0xFF) base = .next t ∧ t.halted = false) ∧
    namesWritten (.addImm 1 0xFF) 15 = false ∧ setsFlag (.addImm 1 0xFF) = false :=
  ⟨⟨_, rfl, rfl⟩, rfl, rfl⟩

theorem test_witness_OnlyTheListedInstructionsRaise :
    base.halted = false ∧ ∃ t, exec .ret base = .next t ∧ t.halted = true := ⟨rfl, _, rfl, rfl⟩

theorem test_witness_InputsAreSeenOnlyByTheirReaders :
    readsInput (.ldMemVx 1) = false ∧ ∃ t, exec (.ldMemVx 1) base = .next t := ⟨rfl, _, rfl⟩

theorem test_witness_CallPushesItsOwnAddress : State.sp { base with sp := 15 } < 16 := by decide

theorem test_witness_CallOnFullStackHalts : State.sp { base with sp := 16 } = 16 := rfl

theorem test_witness_ReturnGoesPastThePoppedAddress :
    (0 < State.sp { base with sp := 16 } ∧ State.sp { base with sp := 16 } ≤ 16) ∧
    (0 < State.sp { base with sp := 1 } ∧ State.sp { base with sp := 1 } ≤ 16) := by decide

theorem test_witness_ReturnOnEmptyStackHalts : base.sp = 0 := rfl

theorem test_witness_CallThenReturnResumesAfterTheCall :
    State.sp { base with sp := 15 } < 16 ∧
    ∃ t, exec (.call 0x400) { base with sp := 15 } = .next t ∧ KeepsStack t t :=
  ⟨by decide, _, rfl, rfl, fun _ => rfl⟩

theorem test_witness_FlagArithmeticTable : (14 : Nibble) ≠ 15 := by decide

theorem test_witness_RandomByteIsMasked : State.rand { base with rand := 0xB7 } = 0xB7 := rfl

/-- Both clauses at the boundary. -/
theorem test_witness_DecimalDigitsAreStored :
    (State.i { base with i := 4093 }).toNat ≤ 4093 ∧ 4093 < (State.i { base with i := 4094 }).toNat := by
  decide

/-- Both clauses at the boundary, for the last register. -/
theorem test_witness_RegistersAreStored :
    (State.i { base with i := 4080 }).toNat + (15 : Nibble).toNat ≤ 4095 ∧
    4095 < (State.i { base with i := 4081 }).toNat + (15 : Nibble).toNat := by decide

/-- Both clauses at the boundary, for the first register. -/
theorem test_witness_RegistersAreLoaded :
    (State.i { base with i := 4095 }).toNat + (0 : Nibble).toNat ≤ 4095 ∧
    4095 < (State.i { base with i := 4096 }).toNat + (0 : Nibble).toNat := by decide

/-- The last word that can be fetched. -/
theorem test_witness_StoreIntoTheNextWordIsFetched :
    let s : State := { base with pc := 0xFFC, i := 0xFFE }
    s.halted = false ∧ 1 ≤ (1 : Nibble).toNat ∧ s.i.toNat = s.pc.toNat + 2 ∧
      ∃ t, exec (.ldMemVx 1) s = .next t ∧ (!t.halted) = true :=
  ⟨rfl, by decide, by decide, exists_next (p := fun t => !t.halted) (by decide)⟩

theorem test_witness_ClearTurnsEveryCellOff :
    (running 0x00E0).halted = false ∧ (running 0x00E0).pollInput.fetchDecode = .ok .cls := ⟨rfl, rfl⟩

/-- No row from an address that does not exist, and fifteen rows that end at the last byte. -/
theorem test_witness_DrawXorsTheClippedSprite :
    ((0 : Nibble) = 0 ∨ (State.i { base with i := 0xFFFF }).toNat + (0 : Nibble).toNat ≤ 4096) ∧
    ((15 : Nibble) = 0 ∨ (State.i { base with i := 0xFF1 }).toNat + (15 : Nibble).toNat ≤ 4096) := by
  decide

theorem test_witness_DrawPastTheEndOfMemoryHalts :
    (15 : Nibble) ≠ 0 ∧ 4096 < (State.i { base with i := 0xFF2 }).toNat + (15 : Nibble).toNat := by
  decide

theorem test_witness_DrawingTwiceRestoresTheBuffer :
    (1 : Nibble) ≠ 15 ∧ (2 : Nibble) ≠ 15 ∧
    ((1 : Nibble) = 0 ∨ (sprite [0x80]).i.toNat + (1 : Nibble).toNat ≤ 4096) ∧
    ∃ t u, exec (.drw 1 2 1) (sprite [0x80]) = .next t ∧ exec (.drw 1 2 1) t = .next u :=
  ⟨by decide, by decide, by decide, _, _, rfl, rfl⟩

theorem test_witness_KeySkipsTestTheLatch : ((base.setReg 4 15).reg 4).toNat < 16 := by decide

theorem test_witness_KeySkipsOnAbsentKeyHalt : 16 ≤ ((base.setReg 4 16).reg 4).toNat := by decide

/-- Both clauses: no key, and the last key. -/
theorem test_witness_KeyWaitStoresAPressedKey :
    (∀ k, k < 16 → base.keyDown k = false) ∧ (15 < 16 ∧ (keysDown 0x8000).keyDown 15 = true) := by
  decide

/-- Both clauses. -/
theorem test_witness_TimerWrittenInGateCycleCountsDown :
    ((gateAt 0xF115).halted = false ∧ (gateAt 0xF115).tick = 9 ∧
      (gateAt 0xF115).pollInput.fetchDecode = .ok (.ldDTVx 1)) ∧
    ((gateAt 0xF118).halted = false ∧ (gateAt 0xF118).tick = 9 ∧
      (gateAt 0xF118).pollInput.fetchDecode = .ok (.ldSTVx 1)) :=
  ⟨⟨rfl, rfl, rfl⟩, rfl, rfl, rfl⟩

/-- A register write keeps memory, whatever the font. -/
theorem glyph_hypotheses (font : Config.Font) :
    KeepsMemory (State.resetWith font) ((State.resetWith font).setReg 1 15) ∧
    (((State.resetWith font).setReg 1 15).reg 1).toNat = 15 ∧ 15 < 16 ∧ 4 < 5 :=
  ⟨fun _ => rfl, by rw [State.reg_setReg_same]; rfl, by decide, by decide⟩

/-- The last row of the last glyph. -/
theorem test_witness_LdFPointsAtTheGlyph :
    KeepsMemory (State.resetWith Config.font) ((State.resetWith Config.font).setReg 1 15) ∧
    (((State.resetWith Config.font).setReg 1 15).reg 1).toNat = 15 ∧ 15 < 16 ∧ 4 < 5 :=
  glyph_hypotheses Config.font

end Sys2Proof.Tests
end

/-! ### Fetch -/

namespace Sys2Proof.Proofs

open Sys2Proof Sys2Proof.Machine

/-- Settles O8: below 4095 the fetched word is the byte at `pc`, high, over the byte at `pc + 1`,
low; from 4095 on no word is fetched. -/
theorem fetchIsBigEndianAndBounded : Obligations.FetchIsBigEndianAndBounded := by
  intro s
  constructor
  · intro hpc
    exact ⟨_, fetchWord_of_lt s hpc, toNat_wordOfBytes _ _⟩
  · exact fetchDecode_of_ge s

end Sys2Proof.Proofs

/-! ### Control transfer -/

namespace Sys2Proof.Proofs

open Sys2Proof Sys2Proof.Machine

@[simp] theorem toNat_zextAddr (nnn : Addr12) : (zextAddr nnn).toNat = nnn.toNat :=
  BitVec.toNat_setWidth_of_le (by decide)

@[simp] theorem toNat_zextByte (b : Byte) : (zextByte b).toNat = b.toNat :=
  BitVec.toNat_setWidth_of_le (by decide)

/-- A byte and a 12-bit address sum to at most 0x10FE, so `JP V0,nnn` cannot wrap (R128). -/
theorem toNat_zextByte_add_zextAddr (b : Byte) (nnn : Addr12) :
    (zextByte b + zextAddr nnn).toNat = b.toNat + nnn.toNat := by
  have hb := b.isLt
  have hn := nnn.isLt
  rw [BitVec.toNat_add, toNat_zextByte, toNat_zextAddr]
  exact Nat.mod_eq_of_lt (by omega)

/-- The frame of a control transfer: a jump keeps `I`, the registers and everything outside them. -/
theorem jumpTo_frame (s : State) (a : Word) :
    (s.jumpTo a).i = s.i ∧ KeepsRegsBut [] s (s.jumpTo a) ∧ KeepsOutsideRegs s (s.jumpTo a) :=
  ⟨rfl, fun _ _ => rfl, fun _ => rfl, fun _ _ => rfl, ⟨rfl, fun _ => rfl⟩, ⟨rfl, rfl⟩,
    rfl, rfl, rfl, rfl, rfl, rfl, rfl, rfl, rfl⟩

/-- A skip is a jump from `pc` (R120), so it has the frame of one. -/
theorem skipIf_eq_jumpTo (s : State) (c : Bool) :
    s.skipIf c = s.jumpTo (s.pc + if c then 4 else 2) := rfl

/-- An instruction whose meaning is `skipIf c` completes as a skip on the condition that `c` decides
(R120, R129). -/
theorem completesAsSkip_of_exec {i : Instr} {s : State} {c : Bool} {p : Prop}
    (hexec : exec i s = .next (s.skipIf c)) (hc : c = true ↔ p) : CompletesAsSkip i s p := by
  refine ⟨s.skipIf c, hexec, fun hp => ?taken, fun hp => ?notTaken, ?frame⟩
  case taken => simp [hc.mpr hp]
  case notTaken => simp [mt hc.mp hp]
  case frame => exact skipIf_eq_jumpTo s c ▸ jumpTo_frame s _

/-- Settles O30: `JP nnn` jumps to `nnn` widened to 16 bits, whose value is that of `nnn`. -/
theorem jumpSetsPc : Obligations.JumpSetsPc := by
  intro nnn s
  exact ⟨s.jumpTo (zextAddr nnn), rfl, toNat_zextAddr nnn, jumpTo_frame s _⟩

/-- Settles O31: `JP V0,nnn` jumps to the 16-bit sum of `V[0]` and `nnn`, which does not wrap. -/
theorem indexedJumpAddsV0 : Obligations.IndexedJumpAddsV0 := by
  intro nnn s
  exact ⟨s.jumpTo (zextByte (s.reg 0) + zextAddr nnn), rfl,
    toNat_zextByte_add_zextAddr (s.reg 0) nnn, jumpTo_frame s _⟩

/-- Settles O37: each compare skip is `skipIf` on a test of two bytes, which are equal exactly when
their values are. -/
theorem compareSkipsMoveByFourOrTwo : Obligations.CompareSkipsMoveByFourOrTwo := by
  have heq (a b : Byte) : (a == b) = true ↔ a.toNat = b.toNat :=
    beq_iff_eq.trans BitVec.toNat_inj.symm
  have hne (a b : Byte) : (a != b) = true ↔ a.toNat ≠ b.toNat :=
    bne_iff_ne.trans BitVec.toNat_inj.symm.not
  intro x y kk s
  refine ⟨?seImm, ?sneImm, ?seReg, ?sneReg⟩
  case seImm => exact completesAsSkip_of_exec rfl (heq (s.reg x) kk)
  case sneImm => exact completesAsSkip_of_exec rfl (hne (s.reg x) kk)
  case seReg => exact completesAsSkip_of_exec rfl (heq (s.reg x) (s.reg y))
  case sneReg => exact completesAsSkip_of_exec rfl (hne (s.reg x) (s.reg y))

end Sys2Proof.Proofs

/-! ### Loads, logic and the immediate addition -/

namespace Sys2Proof.Proofs

open Sys2Proof Sys2Proof.Machine

/-- The frame of a register write: `I`, every other register and everything outside the registers. -/
theorem setReg_frame (s : State) (x : Nibble) (b : Byte) :
    (s.setReg x b).i = s.i ∧ KeepsRegsBut [x] s (s.setReg x b) ∧
      KeepsOutsideRegs s (s.setReg x b) :=
  ⟨rfl, fun _ hr => s.reg_setReg_ne b (List.ne_of_not_mem_cons hr), fun _ => rfl, fun _ _ => rfl,
    ⟨rfl, fun _ => rfl⟩, ⟨rfl, rfl⟩, rfl, rfl, rfl, rfl, rfl, rfl, rfl, rfl, rfl⟩

/-- An instruction whose meaning is `writeReg x b` completes and writes `V[x]` only, `x = 15`
included; what it promises of the next state has to follow from `V[x]` being `b` there. -/
theorem completesInRegs_of_writeReg {i : Instr} {s : State} {x : Nibble} {post : State → Prop}
    (b : Byte) (hexec : exec i s = writeReg x b s) (hpost : ∀ t : State, t.reg x = b → post t) :
    CompletesInRegs i s [x] post := by
  refine ⟨(s.setReg x b).advance, hexec, hpost _ ?written, rfl, ?frame⟩
  case written => exact s.reg_setReg_same x b
  case frame => exact setReg_frame s x b

/-- Settles O38: each of the five instructions is `writeReg` of its own byte, and the bits of a
bitwise operation are the operation on the bits. -/
theorem loadsAndLogicWriteVxOnly : Obligations.LoadsAndLogicWriteVxOnly := by
  intro x y kk s
  refine ⟨?ldImm, ?ldReg, ?or, ?and, ?xor⟩
  case ldImm => exact completesInRegs_of_writeReg kk rfl fun _ ht => ht
  case ldReg => exact completesInRegs_of_writeReg (s.reg y) rfl fun _ ht => ht
  case or =>
    exact completesInRegs_of_writeReg (s.reg x ||| s.reg y) rfl fun _ ht _ => by
      rw [ht, BitVec.getLsbD_or]
  case and =>
    exact completesInRegs_of_writeReg (s.reg x &&& s.reg y) rfl fun _ ht _ => by
      rw [ht, BitVec.getLsbD_and]
  case xor =>
    exact completesInRegs_of_writeReg (s.reg x ^^^ s.reg y) rfl fun _ ht _ => by
      rw [ht, BitVec.getLsbD_xor]

/-- Settles O39: `ADD Vx,kk` is `writeReg` of the byte sum, whose value is the sum modulo 256. -/
theorem addImmediateWraps : Obligations.AddImmediateWraps := by
  intro x kk s
  exact completesInRegs_of_writeReg (s.reg x + kk) rfl fun _ ht => by
    rw [ht, BitVec.toNat_add]

end Sys2Proof.Proofs

/-! ### Index register and memory transfer -/

namespace Sys2Proof.Proofs

open Sys2Proof Sys2Proof.Machine

/-- 5 times a byte is at most 1275, so the glyph address does not wrap (R162). -/
@[simp] theorem toNat_glyphAddr (b : Byte) : (glyphAddr b).toNat = 5 * b.toNat := by
  have hb := b.isLt
  simp only [glyphAddr, Config.glyphBytes, BitVec.toNat_ofNat]
  omega

@[simp] theorem toNat_hundreds (b : Byte) : (hundreds b).toNat = b.toNat / 100 := by
  have hb := b.isLt
  simp only [hundreds, BitVec.toNat_ofNat]
  omega

@[simp] theorem toNat_tens (b : Byte) : (tens b).toNat = b.toNat / 10 % 10 := by
  simp only [tens, BitVec.toNat_ofNat]
  omega

@[simp] theorem toNat_ones (b : Byte) : (ones b).toNat = b.toNat % 10 := by
  simp only [ones, BitVec.toNat_ofNat]
  omega

/-- The frame of a write to `I` with the ordinary advance: every register and everything outside the
registers. -/
theorem setI_advance_frame (s : State) (w : Word) :
    (s.setI w).advance.pc = s.pc + 2 ∧ KeepsRegsBut [] s (s.setI w).advance ∧
      KeepsOutsideRegs s (s.setI w).advance :=
  ⟨rfl, fun _ _ => rfl, fun _ => rfl, fun _ _ => rfl, ⟨rfl, fun _ => rfl⟩, ⟨rfl, rfl⟩,
    rfl, rfl, rfl, rfl, rfl, rfl, rfl, rfl, rfl⟩

/-- The frame of a change of memory with the ordinary advance: everything but memory. -/
theorem withMem_advance_frame {s t : State} {m : Memory} (ht : t = { s with mem := m }) :
    t.advance.pc = s.pc + 2 ∧ t.advance.i = s.i ∧ KeepsRegsBut [] s t.advance ∧
      KeepsDisplay s t.advance ∧ KeepsStack s t.advance ∧ KeepsTimers s t.advance ∧
      KeepsRest s t.advance := by
  rw [ht]
  exact ⟨rfl, rfl, fun _ _ => rfl, fun _ _ => rfl, ⟨rfl, fun _ => rfl⟩, ⟨rfl, rfl⟩,
    rfl, rfl, rfl, rfl, rfl, rfl, rfl, rfl, rfl⟩

/-- The frame of a change of registers with the ordinary advance: `I` and everything outside the
registers. -/
theorem withRegs_advance_frame {s t : State} (ht : t = { s with v := t.v }) :
    t.advance.pc = s.pc + 2 ∧ t.advance.i = s.i ∧ KeepsOutsideRegs s t.advance := by
  rw [ht]
  exact ⟨rfl, rfl, fun _ => rfl, fun _ _ => rfl, ⟨rfl, fun _ => rfl⟩, ⟨rfl, rfl⟩,
    rfl, rfl, rfl, rfl, rfl, rfl, rfl, rfl, rfl⟩

/-- Settles O43: both are `setI` of an address whose value does not wrap. -/
theorem indexLoads : Obligations.IndexLoads := by
  intro nnn x s
  constructor
  · exact ⟨(s.setI (zextAddr nnn)).advance, rfl, toNat_zextAddr nnn, setI_advance_frame s _⟩
  · exact ⟨(s.setI (glyphAddr (s.reg x))).advance, rfl, toNat_glyphAddr (s.reg x),
      setI_advance_frame s _⟩

/-- `LD B,Vx` in range: only memory changes, the three bytes from `I` on to the digits (R163). -/
theorem execLdB_of_le (x : Nibble) (s : State) (h : s.i.toNat ≤ 4093) :
    ∃ m, execLdB x s = .next (State.advance { s with mem := m }) ∧
      ∀ a, m.byte a = if a = s.i.toNat + 2 then ones (s.reg x) else if a = s.i.toNat + 1
        then tens (s.reg x) else if a = s.i.toNat then hundreds (s.reg x) else s.mem.byte a := by
  have h0 : s.i.toNat < 4096 := by omega
  have h1 : s.i.toNat + 1 < 4096 := by omega
  have h2 : s.i.toNat + 2 < 4096 := by omega
  refine ⟨((s.mem.set s.i.toNat (hundreds (s.reg x))).set (s.i.toNat + 1) (tens (s.reg x))).set
    (s.i.toNat + 2) (ones (s.reg x)), ?_, fun a => ?_⟩
  · simp [execLdB, write_of_lt, State.effAddr, h0, h1, h2]
  · simp only [Memory.byte_set]

/-- `LD B,Vx` out of range: it raises at the first address not below 4096, which is the first, the
second or the third of its writes (R163, R166). -/
theorem execLdB_of_gt (x : Nibble) (s : State) (h : 4093 < s.i.toNat) :
    ∃ t, execLdB x s = .next (State.takeFatal t (.memOutOfBounds (max s.i.toNat 4096) .write)) := by
  rcases (by omega : 4096 ≤ s.i.toNat ∨ s.i.toNat = 4095 ∨ s.i.toNat = 4094) with hi | hi | hi
  · exact ⟨s, by simp [execLdB, write_of_ge, State.effAddr, hi]⟩
  · exact ⟨{ s with mem := s.mem.set 4095 (hundreds (s.reg x)) }, by
      simp [execLdB, write_of_lt, write_of_ge, State.effAddr, hi]⟩
  · exact ⟨{ s with mem := (s.mem.set 4094 (hundreds (s.reg x))).set 4095 (tens (s.reg x)) }, by
      simp [execLdB, write_of_lt, write_of_ge, State.effAddr, hi]⟩

/-- Settles O45: in range the three writes go to three different addresses, so each digit stays and
every other byte is as before; out of range one of the writes raises. -/
theorem decimalDigitsAreStored : Obligations.DecimalDigitsAreStored := by
  intro x s
  constructor
  · intro h
    obtain ⟨m, hm, hbyte⟩ := execLdB_of_le x s h
    refine ⟨State.advance { s with mem := m }, hm, ?hundreds, ?tens, ?ones, fun a ha => ?others,
      withMem_advance_frame rfl⟩
    case hundreds => simp [hbyte, State.effAddr]
    case tens => simp [hbyte, State.effAddr]
    case ones => simp [hbyte, State.effAddr]
    case others =>
      simp only [State.effAddr] at ha
      rw [State.advance_mem, hbyte, if_neg (by omega), if_neg (by omega), if_neg (by omega)]
  · intro h
    obtain ⟨t, ht⟩ := execLdB_of_gt x s h
    exact ⟨_, ht, rfl, rfl⟩

/-- Settles O46: `storeRegs` of the registers 0 to `x`, in range and out of range. -/
theorem registersAreStored : Obligations.RegistersAreStored := by
  intro x s
  constructor
  · intro h
    obtain ⟨m, hm, hbyte, -⟩ := storeRegs_go (x.toNat + 1) 0 s (by omega)
    refine ⟨State.advance { s with mem := m }, congrArg Flow.finish hm, fun r hr => ?stored,
      fun a ha => ?others, withMem_advance_frame rfl⟩
    case stored =>
      simp only [State.advance_mem, State.effAddr, hbyte]
      rw [if_pos (by omega), Nat.add_sub_cancel_left, BitVec.ofNat_toNat, BitVec.setWidth_eq]
    case others =>
      simp only [State.effAddr] at ha
      exact (hbyte a).trans (if_neg (by omega))
  · intro h
    obtain ⟨m, hm, -⟩ := storeRegs_raised (x.toNat + 1) 0 s (by omega) (by omega)
    exact ⟨_, congrArg Flow.finish hm, rfl, rfl⟩

/-- Settles O47: `loadRegs` of the registers 0 to `x`, in range and out of range. -/
theorem registersAreLoaded : Obligations.RegistersAreLoaded := by
  intro x s
  have hx := x.isLt
  constructor
  · intro h
    obtain ⟨t, ht, hts, hreg⟩ := loadRegs_go (x.toNat + 1) 0 s (by omega) (by omega)
    refine ⟨t.advance, congrArg Flow.finish ht, fun r hr => ?loaded, fun r hr => ?others,
      withRegs_advance_frame hts⟩
    case loaded => exact (hreg r).trans (if_pos (by omega))
    case others => exact (hreg r).trans (if_neg (by omega))
  · intro h
    obtain ⟨t, ht, -⟩ := loadRegs_raised (x.toNat + 1) 0 s (by omega) (by omega)
    exact ⟨_, congrArg Flow.finish ht, rfl, rfl⟩

end Sys2Proof.Proofs

/-! ### Display -/

namespace Sys2Proof.Proofs

open Sys2Proof Sys2Proof.Machine

/-- Every row of the all-off display is 0, and a row off the screen reads as 0 (R170, log 24). -/
@[simp] theorem cell_clear (cx cy : Nat) : Display.cell Display.clear cx cy = false := by
  by_cases hcy : cy < 32 <;> simp [Display.cell, Display.clear, Vector.getD, hcy]

/-- A buffer of the all-off display shows 0 for every cell, whatever byte stands for a lit one. -/
theorem fbByteWith_of_clear {p : Published} (hp : p.fb = Display.clear) (pixelOn : Byte) (j : Nat) :
    p.fbByteWith pixelOn j = 0 := by
  rw [Published.fbByteWith, Display.cellAt, hp, cell_clear, if_neg Bool.false_ne_true]

/-- The frame of a change of the display with the ordinary advance: everything but the display. -/
theorem withDisp_advance_frame {s t : State} {d : Display} (ht : t = { s with disp := d }) :
    t.advance.pc = s.pc + 2 ∧ t.advance.i = s.i ∧ KeepsRegsBut [] s t.advance ∧
      KeepsMemory s t.advance ∧ KeepsStack s t.advance ∧ KeepsTimers s t.advance ∧
      KeepsRest s t.advance := by
  rw [ht]
  exact ⟨rfl, rfl, fun _ _ => rfl, fun _ => rfl, ⟨rfl, fun _ => rfl⟩, ⟨rfl, rfl⟩,
    rfl, rfl, rfl, rfl, rfl, rfl, rfl, rfl, rfl⟩

/-- In a running state that fetches `CLS` the cycle completes and publishes the all-off display: the
gate between the execute phase and the publish does not touch the buffer (R170, R195). -/
theorem step_cls_publishes_clear {s : State} (hrun : s.halted = false)
    (hcls : s.fetchDecode = .ok .cls) :
    ∃ t p, step s = .next t ∧ t.out = some p ∧ p.fb = Display.clear := by
  have hstep := (step_of_ok hrun hcls).trans (endCycle_of_running hrun)
  exact ⟨_, _, hstep, State.publish_out _, State.timerGate_disp _⟩

/-- Settles O49: `CLS` is a change of the display to the all-off one, which the same cycle publishes. -/
theorem clearTurnsEveryCellOff : Obligations.ClearTurnsEveryCellOff := by
  intro s
  refine ⟨⟨State.advance { s with disp := Display.clear }, rfl, cell_clear,
    withDisp_advance_frame rfl⟩, fun hrun hcls => ?published⟩
  case published =>
    obtain ⟨t, p, hstep, hout, hfb⟩ := step_cls_publishes_clear hrun hcls
    exact ⟨t, p, hstep, hout, fbByteWith_of_clear hfb⟩

end Sys2Proof.Proofs

/-! ### The cycle -/

namespace Sys2Proof.Proofs

open Sys2Proof Sys2Proof.Machine

/-- Settles O13: every next state of `step` comes from a running state. -/
theorem haltedMachineHasNoStep : Obligations.HaltedMachineHasNoStep := by
  intro s hhalted t hstep
  obtain ⟨hrunning, -⟩ := step_cases hstep
  exact Bool.false_ne_true (hrunning.symm.trans hhalted)

/-- The fields that no instruction writes, not even one that raises: the counter, the key latch, the
ports and the model's own fields (R36). -/
def KeepsUnwritten (s t : State) : Prop :=
  t.tick = s.tick ∧ t.key = s.key ∧ t.out = s.out ∧ t.rand = s.rand ∧ t.inputs = s.inputs ∧
    t.cycle = s.cycle ∧ t.loaded = s.loaded

/-- The instructions that can raise go by their own case lemmas; each other one is a single update of
the state, which names none of these fields. -/
theorem exec_keepsUnwritten {i : Instr} {s t : State} (h : exec i s = .next t) :
    KeepsUnwritten s t := by
  cases i with
  | ret =>
    obtain ⟨-, rfl⟩ | ⟨-, rfl⟩ := execRet_cases h <;> exact ⟨rfl, rfl, rfl, rfl, rfl, rfl, rfl⟩
  | call nnn =>
    obtain ⟨-, rfl⟩ | ⟨-, rfl⟩ := execCall_cases h <;> exact ⟨rfl, rfl, rfl, rfl, rfl, rfl, rfl⟩
  | skp x =>
    obtain ⟨-, rfl⟩ | rfl := execSkp_cases h <;> exact ⟨rfl, rfl, rfl, rfl, rfl, rfl, rfl⟩
  | sknp x =>
    obtain ⟨-, rfl⟩ | rfl := execSknp_cases h <;> exact ⟨rfl, rfl, rfl, rfl, rfl, rfl, rfl⟩
  | drw x y n =>
    obtain ⟨d, v, rfl | ⟨-, rfl⟩⟩ := execDrw_cases h <;> exact ⟨rfl, rfl, rfl, rfl, rfl, rfl, rfl⟩
  | ldB x =>
    obtain ⟨m, -, rfl | ⟨-, rfl⟩⟩ := execLdB_cases h <;> exact ⟨rfl, rfl, rfl, rfl, rfl, rfl, rfl⟩
  | ldMemVx x =>
    obtain ⟨m, -, rfl | ⟨-, rfl⟩⟩ := execLdMemVx_cases h <;>
      exact ⟨rfl, rfl, rfl, rfl, rfl, rfl, rfl⟩
  | ldVxMem x =>
    obtain ⟨v, rfl | ⟨-, rfl⟩⟩ := execLdVxMem_cases h <;> exact ⟨rfl, rfl, rfl, rfl, rfl, rfl, rfl⟩
  | _ =>
    obtain rfl := Host.Outcome.next.inj h
    exact ⟨rfl, rfl, rfl, rfl, rfl, rfl, rfl⟩

/-- A cycle that ends halted leaves the ports alone: neither the poll, nor a fatal condition of the
fetch or the decode, nor the instruction that raised writes them (R195, R218). -/
theorem step_halted_out {s t : State} (hstep : step s = .next t) (ht : t.halted = true) :
    t.out = s.out := by
  obtain ⟨-, ⟨c, -, rfl⟩ | ⟨i, u, -, hexec, ⟨-, rfl⟩ | ⟨hu, rfl⟩⟩⟩ := step_cases hstep
  case inl => rw [State.takeFatal_out, State.pollInput_out]
  case inr.inl =>
    obtain ⟨-, -, hout, -⟩ := exec_keepsUnwritten hexec
    rw [hout, State.pollInput_out]
  case inr.inr =>
    rw [State.publish_halted, State.timerGate_halted, hu] at ht
    exact absurd ht Bool.false_ne_true

/-- A cycle that ends running has come to its publish, the last phase that writes a field. -/
theorem step_running_out {s t : State} (hstep : step s = .next t) (ht : t.halted = false) :
    t.out = some { fb := t.disp, stOut := t.st } := by
  obtain ⟨-, ⟨c, -, rfl⟩ | ⟨i, u, -, -, ⟨hu, rfl⟩ | ⟨-, rfl⟩⟩⟩ := step_cases hstep
  case inl => exact absurd ht.symm Bool.false_ne_true
  case inr.inl => exact absurd (ht.symm.trans hu) Bool.false_ne_true
  case inr.inr => rw [State.publish_out, State.publish_disp, State.publish_st]

/-- Settles O17: the ports after a completed cycle and after one that raised; and a publish undone in
the ports is the state before it. -/
theorem completedCyclePublishesItsEnd : Obligations.CompletedCyclePublishesItsEnd :=
  ⟨fun _ _ hstep => ⟨step_running_out hstep, step_halted_out hstep⟩, fun _ => rfl⟩

end Sys2Proof.Proofs

/-! ### Fatal conditions -/

namespace Sys2Proof.Proofs

open Sys2Proof Sys2Proof.Machine

/-- Taking a fatal condition writes the fault latch only (R218). -/
theorem takeFatal_keepsArchitecture (s : State) (c : Cause) : KeepsArchitecture s (s.takeFatal c) :=
  ⟨rfl, rfl, fun _ _ => rfl, fun _ => rfl, fun _ _ => rfl, ⟨rfl, fun _ => rfl⟩, ⟨rfl, rfl⟩, rfl⟩

/-- The poll writes the key latch, the port and the model's own fields, none of which is in the
frame (R191). -/
theorem keepsArchitecture_of_pollInput {s t : State} (h : KeepsArchitecture s.pollInput t) :
    KeepsArchitecture s t := h

/-- A running state whose fetch or decode fails steps to the halted state with that cause, and only
the poll came before (R190, R211, R218). -/
theorem step_halts_of_fetchDecode_error {s : State} {c : Cause} (hrun : s.halted = false)
    (herror : s.fetchDecode = .error c) :
    ∃ t, step s = .next t ∧ t.halted = true ∧ t.fault = some c ∧ KeepsArchitecture s t :=
  ⟨s.pollInput.takeFatal c, step_of_error hrun herror, State.takeFatal_halted _ c,
    State.takeFatal_fault _ c,
    keepsArchitecture_of_pollInput (takeFatal_keepsArchitecture s.pollInput c)⟩

/-- An instruction that raises in the state it was given halts there with its cause (R218). -/
theorem exec_halts_of_raise {i : Instr} {s : State} {c : Cause} (hexec : exec i s = raise c s) :
    ∃ t, exec i s = .next t ∧ t.halted = true ∧ t.fault = some c ∧ KeepsArchitecture s t :=
  ⟨s.takeFatal c, hexec, State.takeFatal_halted s c, State.takeFatal_fault s c,
    takeFatal_keepsArchitecture s c⟩

/-- The refused push is all a `CALL` on a full stack does (R71, R213). -/
theorem exec_call_of_full (nnn : Addr12) {s : State} (h : 16 ≤ s.sp) :
    exec (.call nnn) s = raise .stackOverflow s := by
  change execCall nnn s = _
  rw [execCall, push_of_ge s s.pc h]

/-- `RET` looks at the depth before it pops (R72, R214). -/
theorem exec_ret_of_empty {s : State} (h : s.sp = 0) : exec .ret s = raise .stackUnderflow s :=
  if_pos h

/-- The first load of a machine, before any cycle, raises on a program that does not fit; all it has
written then is that the load has happened (R74, R215). -/
theorem load_of_too_large {s : State} {bytes : List Byte} (hloaded : s.loaded = false)
    (hcycle : s.cycle = 0) (hlong : 3584 < bytes.length) :
    s.load bytes = raise (.loadTooLarge bytes.length) { s with loaded := true } := by
  have hfits : programFits bytes = false := decide_eq_false (Nat.not_le.mpr hlong)
  simp [State.load, hloaded, hcycle, hfits]

/-- Settles O7: the load into the reset state raises, which keeps memory, and the halted state it
answers has no step. -/
theorem tooLargeProgramNeverRuns : Obligations.TooLargeProgramNeverRuns := by
  intro font bytes hlong
  have hload := load_of_too_large (s := State.resetWith font) rfl rfl hlong
  refine ⟨_, hload, State.takeFatal_halted _ _, State.takeFatal_fault _ _, ?memory, ?noStep⟩
  case memory => exact fun _ => rfl
  case noStep => exact haltedMachineHasNoStep _ (State.takeFatal_halted _ _)

/-- Settles O12: an unmapped word is an error of the decode, with the word in its cause. -/
theorem unmappedWordHalts : Obligations.UnmappedWordHalts := by
  intro s op r hrun hfetch hdecode
  exact step_halts_of_fetchDecode_error hrun (fetchDecode_of_unmapped hfetch hdecode)

/-- Settles O33: the `CALL` raises in the state it was given, so stack and `pc` are as before. -/
theorem callOnFullStackHalts : Obligations.CallOnFullStackHalts := by
  intro nnn s hfull
  obtain ⟨t, hexec, hhalted, hfault, hpc, -, -, -, -, hstack, -⟩ :=
    exec_halts_of_raise (exec_call_of_full nnn hfull.ge)
  exact ⟨t, hexec, hhalted, hfault, hstack, hpc⟩

/-- Settles O35: the `RET` raises in the state it was given. -/
theorem returnOnEmptyStackHalts : Obligations.ReturnOnEmptyStackHalts := by
  intro s hempty
  exact exec_halts_of_raise (exec_ret_of_empty hempty)

end Sys2Proof.Proofs

/-! ### Reset -/

namespace Sys2Proof.Proofs

open Sys2Proof Sys2Proof.Machine

/-- Memory after reset reads as the font followed by zeros (R61, R63, R240): the font covers the bytes
the default one would have, and past both an unlisted byte is 0. -/
theorem byte_resetWith (font : Config.Font) (a : Nat) :
    (State.resetWith font).mem.byte a = font.toList.getD a 0 := by
  rw [State.resetWith_mem, Memory.byte_place, Vector.length_toList]
  by_cases ha : a < 80
  · rw [if_pos (by omega), Nat.sub_zero]
  · have hpast (f : Config.Font) : f.toList.getD a 0 = 0 :=
      List.getD_eq_default _ _ (by rw [Vector.length_toList]; omega)
    rw [if_neg (by omega), Memory.byte_reset, Memory.resetByte, hpast, hpast]

theorem byte_resetWith_of_lt (font : Config.Font) {a : Nat} (h : a < 80) :
    (State.resetWith font).mem.byte a = font[a] := by
  rw [byte_resetWith, List.getD_eq_getElem _ _ (by rwa [Vector.length_toList]),
    Vector.getElem_toList]

theorem byte_resetWith_of_ge (font : Config.Font) {a : Nat} (h : 80 ≤ a) :
    (State.resetWith font).mem.byte a = 0 := by
  rw [byte_resetWith, List.getD_eq_default _ _ (by rwa [Vector.length_toList])]

theorem wf_resetWith (font : Config.Font) : (State.resetWith font).mem.wf = true :=
  Memory.wf_place Memory.wf_reset (by rw [Vector.length_toList]; decide)

/-- No key is down after reset (R240). -/
theorem keyDown_resetWith (font : Config.Font) (k : Nat) :
    (State.resetWith font).keyDown k = false :=
  BitVec.getLsbD_zero

/-- The default font is what an unlisted address reads as, so placing it changes no byte, and canonical
memories that read alike are equal (logs 9, 21). -/
theorem resetWith_default_font : State.resetWith Config.font = State.reset := by
  have hmem : (State.resetWith Config.font).mem = State.reset.mem :=
    Memory.eq_of_byte_eq (wf_resetWith Config.font) Memory.wf_reset (byte_resetWith Config.font)
  exact congrArg (fun m => { State.reset with mem := m }) hmem

/-- Settles O5: the font is the only thing in which a reset state differs from `State.reset`; its
display is the all-off one. -/
theorem resetLeavesTheStatedValues : Obligations.ResetLeavesTheStatedValues := by
  refine ⟨fun font => ⟨State.reset_reg, rfl, rfl, rfl, fun _ hk => State.reset_slot hk, rfl, rfl, rfl,
    ?font, ?zeros, cell_clear, keyDown_resetWith font, rfl, rfl⟩, resetWith_default_font⟩
  case font => exact fun _ ha => byte_resetWith_of_lt font ha
  case zeros => exact fun _ ha => byte_resetWith_of_ge font ha

end Sys2Proof.Proofs

/-! ### Encoding -/

namespace Sys2Proof.Proofs

open Sys2Proof Sys2Proof.Machine

/-- The family `RowOf`, for any instruction. -/
theorem rowOf (i : Instr) : Laws.RowOf.Statement i := by
  cases i with
  | cls => exact Laws.RowOf.cls
  | ret => exact Laws.RowOf.ret
  | jp nnn => exact Laws.RowOf.jp nnn
  | call nnn => exact Laws.RowOf.call nnn
  | seImm x kk => exact Laws.RowOf.seImm x kk
  | seReg x y => exact Laws.RowOf.seReg x y
  | sneImm x kk => exact Laws.RowOf.sneImm x kk
  | sneReg x y => exact Laws.RowOf.sneReg x y
  | ldImm x kk => exact Laws.RowOf.ldImm x kk
  | addImm x kk => exact Laws.RowOf.addImm x kk
  | ldReg x y => exact Laws.RowOf.ldReg x y
  | orReg x y => exact Laws.RowOf.orReg x y
  | andReg x y => exact Laws.RowOf.andReg x y
  | xorReg x y => exact Laws.RowOf.xorReg x y
  | addReg x y => exact Laws.RowOf.addReg x y
  | sub x y => exact Laws.RowOf.sub x y
  | shr x y => exact Laws.RowOf.shr x y
  | subn x y => exact Laws.RowOf.subn x y
  | shl x y => exact Laws.RowOf.shl x y
  | ldI nnn => exact Laws.RowOf.ldI nnn
  | jpV0 nnn => exact Laws.RowOf.jpV0 nnn
  | rnd x kk => exact Laws.RowOf.rnd x kk
  | drw x y n => exact Laws.RowOf.drw x y n
  | skp x => exact Laws.RowOf.skp x
  | sknp x => exact Laws.RowOf.sknp x
  | ldVxDT x => exact Laws.RowOf.ldVxDT x
  | ldDTVx x => exact Laws.RowOf.ldDTVx x
  | ldSTVx x => exact Laws.RowOf.ldSTVx x
  | ldVxK x => exact Laws.RowOf.ldVxK x
  | addI x => exact Laws.RowOf.addI x
  | ldF x => exact Laws.RowOf.ldF x
  | ldB x => exact Laws.RowOf.ldB x
  | ldMemVx x => exact Laws.RowOf.ldMemVx x
  | ldVxMem x => exact Laws.RowOf.ldVxMem x

/-- Some row selects the word of an instruction and reads the instruction back, and no other row
selects the word (R94, R95). -/
theorem decode_encode (i : Instr) : decode (encode i) = .ok i := by
  obtain ⟨row, hrow, hselects, hbuild⟩ := rowOf i
  rw [decode_of_selects hrow hselects, hbuild]

/-- Decoding bytes is decoding the word of the first two; the rest is handed back (R90). -/
theorem decodeBytes_of_decode {hi lo : Byte} {i : Instr} (h : decode (wordOfBytes hi lo) = .ok i)
    (rest : List Byte) : decodeBytes (hi :: lo :: rest) = .ok (i, rest) := by
  simp only [decodeBytes, h]

/-- Settles O1: through the row of each instruction, and through the two bytes of a word. -/
theorem decodeOfEncodeIsIdentity : Obligations.DecodeOfEncodeIsIdentity := by
  intro i _
  refine ⟨decode_encode i, fun rest => ?bytes⟩
  case bytes =>
    refine decodeBytes_of_decode ?_ rest
    rw [wordOfBytes_split, decode_encode]

/-! A word with the fixed bits of a format is its group, its fields and its selector put together
(R91, R92). -/

/-- A word whose group bits are those of `g` has the group `g`. -/
theorem group_of_mask {op : Word} {g : Nibble} (h : op &&& 0xF000#16 = (g ++ 0#12 : Word)) :
    op.toNat / 4096 = g.toNat := by
  have hmask := congrArg BitVec.toNat h
  rw [toNat_and_F000, toNat_formatA, BitVec.toNat_ofNat] at hmask
  omega

/-- The next nibble down joins the part of a word above it. -/
theorem div_mul_add_nibble (w k : Nat) : w / (k * 16) * 16 + w / k % 16 = w / k := by
  rw [← Nat.div_div_eq_div_mul, Nat.div_add_mod']

theorem formatA_of_mask {op : Word} (g : Nibble) (h : op &&& 0xF000#16 = (g ++ 0#12 : Word)) :
    (g ++ fieldNNN op : Word) = op := by
  apply BitVec.eq_of_toNat_eq
  rw [toNat_formatA, toNat_fieldNNN, ← group_of_mask h, Nat.div_add_mod']

theorem formatI_of_mask {op : Word} (g : Nibble) (h : op &&& 0xF000#16 = (g ++ 0#12 : Word)) :
    (g ++ fieldX op ++ fieldKK op : Word) = op := by
  apply BitVec.eq_of_toNat_eq
  rw [toNat_formatI, toNat_fieldX, toNat_fieldKK, ← group_of_mask h,
    div_mul_add_nibble op.toNat 256, Nat.div_add_mod']

theorem formatD_of_mask {op : Word} (g : Nibble) (h : op &&& 0xF000#16 = (g ++ 0#12 : Word)) :
    (g ++ fieldX op ++ fieldY op ++ fieldN op : Word) = op := by
  apply BitVec.eq_of_toNat_eq
  rw [toNat_formatR, toNat_fieldX, toNat_fieldY, toNat_fieldN, ← group_of_mask h,
    div_mul_add_nibble op.toNat 256, div_mul_add_nibble op.toNat 16, Nat.div_add_mod']

/-- As format D, with the low nibble fixed. -/
theorem formatR_of_mask {op : Word} (g n : Nibble)
    (h : op &&& 0xF00F#16 = (g ++ 0#4 ++ 0#4 ++ n : Word)) :
    (g ++ fieldX op ++ fieldY op ++ n : Word) = op := by
  have hmask := congrArg BitVec.toNat h
  rw [toNat_and_F00F, toNat_formatR, BitVec.toNat_ofNat] at hmask
  have hn := n.isLt
  have hgroup : op.toNat / 4096 = g.toNat := by omega
  have hlow : op.toNat % 16 = n.toNat := by omega
  apply BitVec.eq_of_toNat_eq
  rw [toNat_formatR, toNat_fieldX, toNat_fieldY, ← hgroup, ← hlow,
    div_mul_add_nibble op.toNat 256, div_mul_add_nibble op.toNat 16, Nat.div_add_mod']

/-- As format I, with the low byte fixed. -/
theorem formatX_of_mask {op : Word} (g : Nibble) (kk : Byte)
    (h : op &&& 0xF0FF#16 = (g ++ 0#4 ++ kk : Word)) : (g ++ fieldX op ++ kk : Word) = op := by
  have hmask := congrArg BitVec.toNat h
  rw [toNat_and_F0FF, toNat_formatI, BitVec.toNat_ofNat] at hmask
  have hkk := kk.isLt
  have hgroup : op.toNat / 4096 = g.toNat := by omega
  have hlow : op.toNat % 256 = kk.toNat := by omega
  apply BitVec.eq_of_toNat_eq
  rw [toNat_formatI, toNat_fieldX, ← hgroup, ← hlow, div_mul_add_nibble op.toNat 256,
    Nat.div_add_mod']

/-- A row whose instructions have no second spelling: every word it selects is the word of the
instruction it builds. -/
def EncodesBack (row : OpcodeRow) : Prop :=
  ∀ op, row.selects op = true → encode (row.build op) = op

/-- The bits the row compares are those of its pattern (R94). -/
theorem encodesBack_of_masked {row : OpcodeRow}
    (h : ∀ op, op &&& row.mask = row.pattern → encode (row.build op) = op) : EncodesBack row :=
  fun op hselects => h op (beq_iff_eq.mp hselects)

/-- A row that compares every bit selects its pattern only. -/
theorem eq_of_full_mask {op pattern : Word} (h : op &&& 0xFFFF#16 = pattern) : pattern = op := by
  rw [← h]
  exact BitVec.and_allOnes

theorem encodesBack_rowsFlow : ∀ row ∈ rowsFlow, EncodesBack row := by
  simp only [rowsFlow, List.forall_mem_cons]
  exact ⟨encodesBack_of_masked fun _ h => eq_of_full_mask h,
    encodesBack_of_masked fun _ h => eq_of_full_mask h,
    encodesBack_of_masked fun _ h => formatA_of_mask 0x1 h,
    encodesBack_of_masked fun _ h => formatA_of_mask 0x2 h,
    encodesBack_of_masked fun _ h => formatI_of_mask 0x3 h,
    encodesBack_of_masked fun _ h => formatR_of_mask 0x5 0x0 h,
    encodesBack_of_masked fun _ h => formatI_of_mask 0x4 h,
    encodesBack_of_masked fun _ h => formatR_of_mask 0x9 0x0 h,
    encodesBack_of_masked fun _ h => formatI_of_mask 0x6 h,
    encodesBack_of_masked fun _ h => formatI_of_mask 0x7 h,
    List.forall_mem_nil _⟩

theorem encodesBack_rowsAlu : ∀ row ∈ rowsAlu, EncodesBack row := by
  simp only [rowsAlu, List.forall_mem_cons]
  exact ⟨encodesBack_of_masked fun _ h => formatR_of_mask 0x8 0x0 h,
    encodesBack_of_masked fun _ h => formatR_of_mask 0x8 0x1 h,
    encodesBack_of_masked fun _ h => formatR_of_mask 0x8 0x2 h,
    encodesBack_of_masked fun _ h => formatR_of_mask 0x8 0x3 h,
    encodesBack_of_masked fun _ h => formatR_of_mask 0x8 0x4 h,
    encodesBack_of_masked fun _ h => formatR_of_mask 0x8 0x5 h,
    encodesBack_of_masked fun _ h => formatR_of_mask 0x8 0x6 h,
    encodesBack_of_masked fun _ h => formatR_of_mask 0x8 0x7 h,
    encodesBack_of_masked fun _ h => formatR_of_mask 0x8 0xE h,
    List.forall_mem_nil _⟩

theorem encodesBack_rowsIndex : ∀ row ∈ rowsIndex, EncodesBack row := by
  simp only [rowsIndex, List.forall_mem_cons]
  exact ⟨encodesBack_of_masked fun _ h => formatA_of_mask 0xA h,
    encodesBack_of_masked fun _ h => formatA_of_mask 0xB h,
    encodesBack_of_masked fun _ h => formatI_of_mask 0xC h,
    encodesBack_of_masked fun _ h => formatD_of_mask 0xD h,
    encodesBack_of_masked fun _ h => formatX_of_mask 0xE 0x9E h,
    encodesBack_of_masked fun _ h => formatX_of_mask 0xE 0xA1 h,
    List.forall_mem_nil _⟩

theorem encodesBack_rowsMisc : ∀ row ∈ rowsMisc, EncodesBack row := by
  simp only [rowsMisc, List.forall_mem_cons]
  exact ⟨encodesBack_of_masked fun _ h => formatX_of_mask 0xF 0x07 h,
    encodesBack_of_masked fun _ h => formatX_of_mask 0xF 0x15 h,
    encodesBack_of_masked fun _ h => formatX_of_mask 0xF 0x18 h,
    encodesBack_of_masked fun _ h => formatX_of_mask 0xF 0x0A h,
    encodesBack_of_masked fun _ h => formatX_of_mask 0xF 0x1E h,
    encodesBack_of_masked fun _ h => formatX_of_mask 0xF 0x29 h,
    encodesBack_of_masked fun _ h => formatX_of_mask 0xF 0x33 h,
    encodesBack_of_masked fun _ h => formatX_of_mask 0xF 0x55 h,
    encodesBack_of_masked fun _ h => formatX_of_mask 0xF 0x65 h,
    List.forall_mem_nil _⟩

theorem encodesBack_opcodeTable : ∀ row ∈ opcodeTable, EncodesBack row := by
  simp only [opcodeTable, List.forall_mem_append]
  exact ⟨⟨⟨encodesBack_rowsFlow, encodesBack_rowsAlu⟩, encodesBack_rowsIndex⟩, encodesBack_rowsMisc⟩

/-- Settles O2: a word that decodes is one that some row selects, and every row encodes back. -/
theorem encodeOfDecodeIsIdentity : Obligations.EncodeOfDecodeIsIdentity := by
  intro op i hdecode
  obtain ⟨row, hrow, hselects, hok⟩ | ⟨-, herror⟩ := decode_cases op
  · obtain rfl : row.build op = i := Except.ok.inj (hok.symm.trans hdecode)
    exact encodesBack_opcodeTable row hrow op hselects
  · cases herror.symm.trans hdecode

/-- Decoding refuses a word exactly when no row selects it (R96). -/
theorem decode_error_iff (op : Word) :
    (∃ r, decode op = .error r) ↔ ∀ row ∈ opcodeTable, row.selects op = false := by
  obtain ⟨row, hrow, hselects, hok⟩ | ⟨hnone, herror⟩ := decode_cases op
  · constructor
    · rintro ⟨r, hr⟩
      cases hok.symm.trans hr
    · intro hnone
      exact absurd ((hnone row hrow).symm.trans hselects) Bool.false_ne_true
  · exact ⟨fun _ => hnone, fun _ => ⟨_, herror⟩⟩

/-- Settles O3: a refused word differs from the pattern of every row in the fixed bits. In numbers, group
by group, the rows of the group leave the words of the table and no others. -/
theorem unmappedWordsAreThoseOfTheTable : Obligations.UnmappedWordsAreThoseOfTheTable := by
  intro op
  rw [decode_error_iff]
  have hall : op &&& 0xFFFF#16 = op := BitVec.and_allOnes
  have hgroup : op.toNat / 4096 < 16 := by have := op.isLt; omega
  have hzero : op.toNat = 0xE0 ∨ op.toNat = 0xEE → op.toNat / 4096 = 0 := by omega
  have hnibble : op.toNat % 16 < 16 := Nat.mod_lt _ (by decide)
  have hbyte : op.toNat % 256 < 256 := Nat.mod_lt _ (by decide)
  simp only [opcodeTable, rowsFlow, rowsAlu, rowsIndex, rowsMisc, List.forall_mem_append,
    List.forall_mem_cons, OpcodeRow.selects, beq_eq_false_iff_ne, ne_eq, ← BitVec.toNat_inj, hall,
    BitVec.ofNat_eq_ofNat, toNat_and_F000, toNat_and_F00F, toNat_and_F0FF, BitVec.toNat_ofNat]
  generalize op.toNat / 4096 = g at *
  generalize op.toNat % 16 = n at *
  generalize op.toNat % 256 = b at *
  generalize op.toNat = w at *
  -- With the group known, `simp` drops the rows of the other groups; the low bits remain.
  interval_cases g <;> simp <;> omega

/-- Settles O4: eight words are the words of the instructions named, and no row selects the three
others. -/
theorem workedEncodingsDecode : Obligations.WorkedEncodingsDecode :=
  ⟨decode_encode (.jp 0x300), decode_encode (.ldImm 3 0x2A), decode_encode (.addReg 0xA 0xB),
    decode_encode (.drw 1 2 5), decode_encode (.ldVxMem 0xE), decode_encode (.sknp 0),
    decode_encode (.ldB 3), decode_encode .ret, rfl, rfl, rfl⟩

end Sys2Proof.Proofs

/-! ### What an instruction leaves unchanged and what it may raise -/

namespace Sys2Proof.Proofs

open Sys2Proof Sys2Proof.Machine

/-- A push with a free slot is all a `CALL` does before it jumps (R71, R122). -/
theorem exec_call_of_free (nnn : Addr12) {s : State} (h : s.sp < 16) :
    exec (.call nnn) s = .next (State.jumpTo
      { s with stack := s.stack.set s.sp s.pc h, sp := s.sp + 1 } (zextAddr nnn)) := by
  change execCall nnn s = _
  rw [execCall, push_of_lt s s.pc h]

/-- A pop is all a `RET` does before it jumps (R72, R123). -/
theorem exec_ret_of_pos {s : State} (h : s.sp ≠ 0) :
    exec .ret s = .next (s.pop.jumpTo (s.slot (s.sp - 1) + 2)) :=
  if_neg h

/-- No instruction stops in a fault or a refusal (log 25). -/
theorem exec_eq_next (i : Instr) (s : State) : ∃ t, exec i s = .next t := by
  cases i with
  | ret =>
    by_cases h : s.sp = 0
    · exact ⟨_, exec_ret_of_empty h⟩
    · exact ⟨_, exec_ret_of_pos h⟩
  | call nnn =>
    by_cases h : s.sp < 16
    · exact ⟨_, exec_call_of_free nnn h⟩
    · exact ⟨_, exec_call_of_full nnn (Nat.not_lt.mp h)⟩
  | skp x =>
    by_cases h : keyIndexOk (s.reg x) = true
    · exact ⟨_, if_pos h⟩
    · exact ⟨_, if_neg h⟩
  | sknp x =>
    by_cases h : keyIndexOk (s.reg x) = true
    · exact ⟨_, if_pos h⟩
    · exact ⟨_, if_neg h⟩
  | drw x y n => exact finish_eq_next _
  | ldB x => exact finish_eq_next _
  | ldMemVx x => exact finish_eq_next _
  | ldVxMem x => exact finish_eq_next _
  | _ => exact ⟨_, rfl⟩

/-- The rows of R36 for memory, the display, the stack, `I` and the timers: each is as before unless the
instruction is one of its writers. -/
structure KeepsUnlessWriter (i : Instr) (s t : State) : Prop where
  mem : (∀ x, i ≠ .ldB x ∧ i ≠ .ldMemVx x) → t.mem = s.mem
  disp : (i ≠ .cls ∧ ∀ x y n, i ≠ .drw x y n) → t.disp = s.disp
  stack : (i ≠ .ret ∧ ∀ nnn, i ≠ .call nnn) → t.sp = s.sp ∧ t.stack = s.stack
  index : (∀ nnn x, i ≠ .ldI nnn ∧ i ≠ .addI x ∧ i ≠ .ldF x) → t.i = s.i
  dt : (∀ x, i ≠ .ldDTVx x) → t.dt = s.dt
  st : (∀ x, i ≠ .ldSTVx x) → t.st = s.st

/-- A writer is excused from its own row; an instruction that can raise goes by its case lemma. -/
theorem exec_keepsUnlessWriter {i : Instr} {s t : State} (h : exec i s = .next t) :
    KeepsUnlessWriter i s t := by
  cases i with
  | cls =>
    obtain rfl := Host.Outcome.next.inj h
    exact ⟨fun _ => rfl, fun hw => absurd rfl hw.1, fun _ => ⟨rfl, rfl⟩, fun _ => rfl, fun _ => rfl,
      fun _ => rfl⟩
  | ret =>
    obtain ⟨-, rfl⟩ | ⟨-, rfl⟩ := execRet_cases h <;>
      exact ⟨fun _ => rfl, fun _ => rfl, fun hw => absurd rfl hw.1, fun _ => rfl, fun _ => rfl,
        fun _ => rfl⟩
  | call nnn =>
    obtain ⟨-, rfl⟩ | ⟨-, rfl⟩ := execCall_cases h <;>
      exact ⟨fun _ => rfl, fun _ => rfl, fun hw => absurd rfl (hw.2 nnn), fun _ => rfl, fun _ => rfl,
        fun _ => rfl⟩
  | ldI nnn =>
    obtain rfl := Host.Outcome.next.inj h
    exact ⟨fun _ => rfl, fun _ => rfl, fun _ => ⟨rfl, rfl⟩, fun hw => absurd rfl (hw nnn 0).1,
      fun _ => rfl, fun _ => rfl⟩
  | addI x =>
    obtain rfl := Host.Outcome.next.inj h
    exact ⟨fun _ => rfl, fun _ => rfl, fun _ => ⟨rfl, rfl⟩, fun hw => absurd rfl (hw 0 x).2.1,
      fun _ => rfl, fun _ => rfl⟩
  | ldF x =>
    obtain rfl := Host.Outcome.next.inj h
    exact ⟨fun _ => rfl, fun _ => rfl, fun _ => ⟨rfl, rfl⟩, fun hw => absurd rfl (hw 0 x).2.2,
      fun _ => rfl, fun _ => rfl⟩
  | ldDTVx x =>
    obtain rfl := Host.Outcome.next.inj h
    exact ⟨fun _ => rfl, fun _ => rfl, fun _ => ⟨rfl, rfl⟩, fun _ => rfl, fun hw => absurd rfl (hw x),
      fun _ => rfl⟩
  | ldSTVx x =>
    obtain rfl := Host.Outcome.next.inj h
    exact ⟨fun _ => rfl, fun _ => rfl, fun _ => ⟨rfl, rfl⟩, fun _ => rfl, fun _ => rfl,
      fun hw => absurd rfl (hw x)⟩
  | drw x y n =>
    obtain ⟨d, v, rfl | ⟨-, rfl⟩⟩ := execDrw_cases h <;>
      exact ⟨fun _ => rfl, fun hw => absurd rfl (hw.2 x y n), fun _ => ⟨rfl, rfl⟩, fun _ => rfl,
        fun _ => rfl, fun _ => rfl⟩
  | ldB x =>
    obtain ⟨m, -, rfl | ⟨-, rfl⟩⟩ := execLdB_cases h <;>
      exact ⟨fun hw => absurd rfl (hw x).1, fun _ => rfl, fun _ => ⟨rfl, rfl⟩, fun _ => rfl,
        fun _ => rfl, fun _ => rfl⟩
  | ldMemVx x =>
    obtain ⟨m, -, rfl | ⟨-, rfl⟩⟩ := execLdMemVx_cases h <;>
      exact ⟨fun hw => absurd rfl (hw x).2, fun _ => rfl, fun _ => ⟨rfl, rfl⟩, fun _ => rfl,
        fun _ => rfl, fun _ => rfl⟩
  | ldVxMem x =>
    obtain ⟨v, rfl | ⟨-, rfl⟩⟩ := execLdVxMem_cases h <;>
      exact ⟨fun _ => rfl, fun _ => rfl, fun _ => ⟨rfl, rfl⟩, fun _ => rfl, fun _ => rfl, fun _ => rfl⟩
  | skp x =>
    obtain ⟨-, rfl⟩ | rfl := execSkp_cases h <;>
      exact ⟨fun _ => rfl, fun _ => rfl, fun _ => ⟨rfl, rfl⟩, fun _ => rfl, fun _ => rfl, fun _ => rfl⟩
  | sknp x =>
    obtain ⟨-, rfl⟩ | rfl := execSknp_cases h <;>
      exact ⟨fun _ => rfl, fun _ => rfl, fun _ => ⟨rfl, rfl⟩, fun _ => rfl, fun _ => rfl, fun _ => rfl⟩
  | _ =>
    obtain rfl := Host.Outcome.next.inj h
    exact ⟨fun _ => rfl, fun _ => rfl, fun _ => ⟨rfl, rfl⟩, fun _ => rfl, fun _ => rfl, fun _ => rfl⟩

/-- An instruction leaves the fault latch alone, or takes a fatal condition that R210 lists for it. -/
theorem exec_fault_cases {i : Instr} {s t : State} (h : exec i s = .next t) :
    (t.halted = s.halted ∧ t.fault = s.fault) ∨
      ∃ c, t.halted = true ∧ t.fault = some c ∧ mayRaise i c = true := by
  cases i with
  | ret =>
    obtain ⟨-, rfl⟩ | ⟨-, rfl⟩ := execRet_cases h
    · exact .inl ⟨rfl, rfl⟩
    · exact .inr ⟨_, rfl, rfl, rfl⟩
  | call nnn =>
    obtain ⟨-, rfl⟩ | ⟨-, rfl⟩ := execCall_cases h
    · exact .inl ⟨rfl, rfl⟩
    · exact .inr ⟨_, rfl, rfl, rfl⟩
  | skp x =>
    obtain ⟨-, rfl⟩ | rfl := execSkp_cases h
    · exact .inl ⟨rfl, rfl⟩
    · exact .inr ⟨_, rfl, rfl, rfl⟩
  | sknp x =>
    obtain ⟨-, rfl⟩ | rfl := execSknp_cases h
    · exact .inl ⟨rfl, rfl⟩
    · exact .inr ⟨_, rfl, rfl, rfl⟩
  | drw x y n =>
    obtain ⟨d, v, rfl | ⟨a, rfl⟩⟩ := execDrw_cases h
    · exact .inl ⟨rfl, rfl⟩
    · exact .inr ⟨_, rfl, rfl, rfl⟩
  | ldB x =>
    obtain ⟨m, -, rfl | ⟨a, rfl⟩⟩ := execLdB_cases h
    · exact .inl ⟨rfl, rfl⟩
    · exact .inr ⟨_, rfl, rfl, rfl⟩
  | ldMemVx x =>
    obtain ⟨m, -, rfl | ⟨a, rfl⟩⟩ := execLdMemVx_cases h
    · exact .inl ⟨rfl, rfl⟩
    · exact .inr ⟨_, rfl, rfl, rfl⟩
  | ldVxMem x =>
    obtain ⟨v, rfl | ⟨a, rfl⟩⟩ := execLdVxMem_cases h
    · exact .inl ⟨rfl, rfl⟩
    · exact .inr ⟨_, rfl, rfl, rfl⟩
  | _ =>
    obtain rfl := Host.Outcome.next.inj h
    exact .inl ⟨rfl, rfl⟩

/-- Only the two stores write memory, and they keep it canonical (R65, R69). -/
theorem exec_keepsMemWf {i : Instr} {s t : State} (h : exec i s = .next t)
    (hwf : s.mem.wf = true) : t.mem.wf = true := by
  by_cases hkeep : ∀ x, i ≠ .ldB x ∧ i ≠ .ldMemVx x
  · rw [(exec_keepsUnlessWriter h).mem hkeep]
    exact hwf
  · obtain ⟨x, rfl | rfl⟩ : ∃ x, i = .ldB x ∨ i = .ldMemVx x := by
      simpa only [not_forall, not_and_or, not_not] using hkeep
    · obtain ⟨m, hm, rfl | ⟨-, rfl⟩⟩ := execLdB_cases h <;> exact hm hwf
    · obtain ⟨m, hm, rfl | ⟨-, rfl⟩⟩ := execLdMemVx_cases h <;> exact hm hwf

/-- `CALL` and `RET` move the depth by one and not past its ends; nothing else moves it (R24). -/
theorem exec_keepsDepth {i : Instr} {s t : State} (h : exec i s = .next t) (hsp : s.sp ≤ 16) :
    t.sp ≤ 16 := by
  cases i with
  | call nnn =>
    obtain ⟨hlt, rfl⟩ | ⟨-, rfl⟩ := execCall_cases h
    · exact hlt
    · exact hsp
  | ret =>
    obtain ⟨-, rfl⟩ | ⟨-, rfl⟩ := execRet_cases h
    · exact (Nat.sub_le _ _).trans hsp
    · exact hsp
  | _ =>
    obtain ⟨hkeep, -⟩ := (exec_keepsUnlessWriter h).stack ⟨nofun, nofun⟩
    rwa [hkeep]

/-- Settles O14: a step of a running machine takes the cause of a failed fetch or decode, or ends the
cycle of an instruction, which always answers a next state. -/
theorem runningMachineAlwaysSteps : Obligations.RunningMachineAlwaysSteps := by
  refine ⟨fun s hrun => ?step, exec_eq_next⟩
  case step =>
    cases hfetch : s.fetchDecode with
    | error c => exact ⟨_, step_of_error hrun hfetch⟩
    | ok i =>
      obtain ⟨t, ht⟩ := exec_eq_next i s.pollInput
      exact ⟨_, by rw [step_of_ok hrun hfetch, ht, endCycle]⟩

/-- Settles O25: from the rows of the three, read one byte, cell and slot at a time. -/
theorem memoryDisplayStackHaveTheirWriters : Obligations.MemoryDisplayStackHaveTheirWriters := by
  intro i s t hexec _
  have hkeep := exec_keepsUnlessWriter hexec
  refine ⟨fun hw a => ?mem, fun hw cx cy => ?disp, fun hw => ?stack⟩
  case mem => rw [hkeep.mem hw]
  case disp => rw [hkeep.disp hw]
  case stack =>
    obtain ⟨hsp, hstack⟩ := hkeep.stack hw
    exact ⟨hsp, fun k => by rw [State.slot, State.slot, hstack]⟩

/-- Settles O26: from the rows of the three and the fields no instruction writes. -/
theorem indexTimersLatchHaveTheirWriters : Obligations.IndexTimersLatchHaveTheirWriters := by
  intro i s t hexec _
  have hkeep := exec_keepsUnlessWriter hexec
  exact ⟨hkeep.index, hkeep.dt, hkeep.st, exec_keepsUnwritten hexec⟩

/-- Settles O28: an instruction that halts a running state has not left the fault latch alone. -/
theorem onlyTheListedInstructionsRaise : Obligations.OnlyTheListedInstructionsRaise := by
  intro i s t hrun hexec hhalted
  obtain ⟨hkeep, -⟩ | ⟨c, -, hfault, hraise⟩ := exec_fault_cases hexec
  · exact absurd (hrun.symm.trans (hkeep.symm.trans hhalted)) Bool.false_ne_true
  · exact ⟨c, hfault, hraise⟩

end Sys2Proof.Proofs

/-! ### Invariants -/

namespace Sys2Proof.Proofs

open Sys2Proof Sys2Proof.Machine

/-- An instruction keeps the invariant, also where it raises: it then records the cause as it halts. -/
theorem exec_keepsInv {i : Instr} {s t : State} (hinv : s.Inv) (h : exec i s = .next t) : t.Inv := by
  obtain ⟨htick, -⟩ := exec_keepsUnwritten h
  refine ⟨exec_keepsMemWf h hinv.mem_wf, exec_keepsDepth h hinv.sp_le, htick ▸ hinv.tick_lt, ?fault⟩
  case fault =>
    obtain ⟨hhalted, hfault⟩ | ⟨c, hhalted, hfault, -⟩ := exec_fault_cases h
    · rw [hhalted, hfault, hinv.halted_iff]
    · rw [hhalted, hfault, Option.isSome_some]

/-- The poll writes no field the invariant speaks of. -/
theorem pollInput_inv {s : State} (hinv : s.Inv) : s.pollInput.Inv :=
  ⟨hinv.mem_wf, hinv.sp_le, hinv.tick_lt, hinv.halted_iff⟩

theorem takeFatal_inv {s : State} (hinv : s.Inv) (c : Cause) : (s.takeFatal c).Inv :=
  ⟨hinv.mem_wf, hinv.sp_le, hinv.tick_lt, rfl⟩

/-- The end of a completed cycle moves the counter within 0 to 9. -/
theorem endOfCycle_inv {s : State} (hinv : s.Inv) : s.timerGate.publish.Inv := by
  have htick : s.timerGate.publish.tick < 10 := by
    rw [State.publish_tick, timerGate_tick_mod hinv.tick_lt]
    exact Nat.mod_lt _ (by decide)
  refine ⟨?mem, ?sp, htick, ?fault⟩
  case mem => simpa using hinv.mem_wf
  case sp => simpa using hinv.sp_le
  case fault => simpa using hinv.halted_iff

/-- Settles O22: each phase of the cycle keeps the invariant, whichever way the step goes. -/
theorem stepKeepsTheInvariant : Obligations.StepKeepsTheInvariant := by
  intro s t hinv hstep
  obtain ⟨-, ⟨c, -, rfl⟩ | ⟨i, u, -, hexec, ⟨-, rfl⟩ | ⟨-, rfl⟩⟩⟩ := step_cases hstep
  case inl => exact takeFatal_inv (pollInput_inv hinv) c
  case inr.inl => exact exec_keepsInv (pollInput_inv hinv) hexec
  case inr.inr => exact endOfCycle_inv (exec_keepsInv (pollInput_inv hinv) hexec)

/-- Settles O21: the memory of reset is canonical with any font, and the rest is the stated values. -/
theorem resetSatisfiesTheInvariant : Obligations.ResetSatisfiesTheInvariant := by
  have hsp : State.reset.sp ≤ 16 := Nat.zero_le _
  have htick : State.reset.tick < 10 := by decide
  exact ⟨⟨Memory.wf_reset, hsp, htick, rfl⟩, fun font => ⟨wf_resetWith font, hsp, htick, rfl⟩⟩

/-- The bounds speak of `pc` and the stack only. -/
theorem pcBounded_congr {s t : State} (hb : s.PcBounded) (hsp : t.sp = s.sp)
    (hstack : t.stack = s.stack) (hpc : t.pc = s.pc) : t.PcBounded := by
  refine ⟨hsp ▸ hb.sp_le, fun k hk => ?slots, hpc ▸ hb.pc_le⟩
  case slots =>
    rw [State.slot, hstack]
    exact hb.slots k (hsp ▸ hk)

/-- A small step from an address that can be fetched does not wrap (R120). -/
theorem toNat_add_small {a d : Word} (ha : a.toNat ≤ 4094) (hd : d.toNat ≤ 4) :
    (a + d).toNat = a.toNat + d.toNat := by
  rw [BitVec.toNat_add]
  exact Nat.mod_eq_of_lt (by omega)

/-- From an address that can be fetched every instruction leaves `pc` at most 0x10FE, which `JP V0,nnn`
reaches (R23, R128). -/
theorem exec_pc_le {i : Instr} {s t : State} (h : exec i s = .next t) (hpc : s.pc.toNat ≤ 4094)
    (hslots : ∀ k, k < s.sp → (s.slot k).toNat ≤ 4094) : t.pc.toNat ≤ 0x10FE := by
  have hstay : s.pc.toNat ≤ 0x10FE := hpc.trans (by decide)
  have hadd {a d : Word} (ha : a.toNat ≤ 4094) (hd : d.toNat ≤ 4) : (a + d).toNat ≤ 0x10FE := by
    rw [toNat_add_small ha hd]
    omega
  have hnext : (s.pc + 2).toNat ≤ 0x10FE := hadd hpc (by decide)
  have hskip (c : Bool) : (s.skipIf c).pc.toNat ≤ 0x10FE := hadd hpc (by cases c <;> decide)
  have hjump (nnn : Addr12) : (zextAddr nnn).toNat ≤ 0x10FE := by
    rw [toNat_zextAddr]
    exact nnn.isLt.le.trans (by decide)
  cases i with
  | jp nnn =>
    obtain rfl := Host.Outcome.next.inj h
    exact hjump nnn
  | jpV0 nnn =>
    obtain rfl := Host.Outcome.next.inj h
    rw [State.jumpTo_pc, toNat_zextByte_add_zextAddr]
    have hv := (s.reg 0).isLt
    have hn := nnn.isLt
    omega
  | call nnn =>
    obtain ⟨-, rfl⟩ | ⟨-, rfl⟩ := execCall_cases h
    · exact hjump nnn
    · exact hstay
  | ret =>
    obtain ⟨hsp, rfl⟩ | ⟨-, rfl⟩ := execRet_cases h
    · exact hadd (hslots (s.sp - 1) (by omega)) (by decide)
    · exact hstay
  | seImm x kk =>
    obtain rfl := Host.Outcome.next.inj h
    exact hskip _
  | sneImm x kk =>
    obtain rfl := Host.Outcome.next.inj h
    exact hskip _
  | seReg x y =>
    obtain rfl := Host.Outcome.next.inj h
    exact hskip _
  | sneReg x y =>
    obtain rfl := Host.Outcome.next.inj h
    exact hskip _
  | skp x =>
    obtain ⟨c, rfl⟩ | rfl := execSkp_cases h
    · exact hskip c
    · exact hstay
  | sknp x =>
    obtain ⟨c, rfl⟩ | rfl := execSknp_cases h
    · exact hskip c
    · exact hstay
  | ldVxK x =>
    obtain rfl := Host.Outcome.next.inj h
    by_cases hkey : s.key = 0
    · exact (congrArg BitVec.toNat (if_pos hkey)).trans_le hstay
    · exact (congrArg BitVec.toNat (if_neg hkey)).trans_le hnext
  | drw x y n =>
    obtain ⟨d, v, rfl | ⟨-, rfl⟩⟩ := execDrw_cases h
    · exact hnext
    · exact hstay
  | ldB x =>
    obtain ⟨m, -, rfl | ⟨-, rfl⟩⟩ := execLdB_cases h
    · exact hnext
    · exact hstay
  | ldMemVx x =>
    obtain ⟨m, -, rfl | ⟨-, rfl⟩⟩ := execLdMemVx_cases h
    · exact hnext
    · exact hstay
  | ldVxMem x =>
    obtain ⟨v, rfl | ⟨-, rfl⟩⟩ := execLdVxMem_cases h
    · exact hnext
    · exact hstay
  | _ =>
    obtain rfl := Host.Outcome.next.inj h
    exact hnext

/-- Every occupied slot holds an address that can be fetched, after an instruction fetched at one: a
`CALL` pushes its own (R122), and a `RET` frees a slot. -/
theorem exec_slots_le {i : Instr} {s t : State} (h : exec i s = .next t) (hpc : s.pc.toNat ≤ 4094)
    (hslots : ∀ k, k < s.sp → (s.slot k).toNat ≤ 4094) :
    ∀ k, k < t.sp → (t.slot k).toNat ≤ 4094 := by
  cases i with
  | call nnn =>
    obtain ⟨hlt, rfl⟩ | ⟨-, rfl⟩ := execCall_cases h
    · intro k hk
      rw [State.slot_jumpTo, slot_push s s.pc hlt]
      split
      · exact hpc
      · next hne => exact hslots k (Nat.lt_of_le_of_ne (Nat.lt_succ_iff.mp hk) hne)
    · exact hslots
  | ret =>
    obtain ⟨-, rfl⟩ | ⟨-, rfl⟩ := execRet_cases h
    · exact fun k hk => hslots k (Nat.lt_of_lt_of_le hk (Nat.sub_le _ _))
    · exact hslots
  | _ =>
    obtain ⟨hsp, hstack⟩ := (exec_keepsUnlessWriter h).stack ⟨nofun, nofun⟩
    intro k hk
    rw [State.slot, hstack]
    exact hslots k (hsp ▸ hk)

/-- A word is fetched below 4095 only, so an instruction starts with `pc` at most 4094 (R66). -/
theorem pc_le_of_fetchDecode_ok {s : State} {i : Instr} (h : s.fetchDecode = .ok i) :
    s.pc.toNat ≤ 4094 := by
  by_contra hge
  cases (fetchDecode_of_ge s (by omega)).symm.trans h

theorem exec_keepsPcBounded {i : Instr} {s t : State} (hb : s.PcBounded) (hpc : s.pc.toNat ≤ 4094)
    (h : exec i s = .next t) : t.PcBounded :=
  ⟨exec_keepsDepth h hb.sp_le, exec_slots_le h hpc hb.slots, exec_pc_le h hpc hb.slots⟩

/-- Settles O24: the instruction of a cycle keeps the bounds, and no other phase writes `pc` or the
stack. -/
theorem stepKeepsPcBounded : Obligations.StepKeepsPcBounded := by
  intro s t hb hstep
  have hpoll : s.pollInput.PcBounded := pcBounded_congr hb rfl rfl rfl
  obtain ⟨-, ⟨c, -, rfl⟩ | ⟨i, u, hfetch, hexec, hend⟩⟩ := step_cases hstep
  case inl => exact pcBounded_congr hb rfl rfl rfl
  case inr =>
    have hu : u.PcBounded := exec_keepsPcBounded hpoll (pc_le_of_fetchDecode_ok hfetch) hexec
    obtain ⟨-, rfl⟩ | ⟨-, rfl⟩ := hend
    · exact hu
    · exact pcBounded_congr hu (by simp) (by simp) (by simp)

/-- Settles O23: no slot is occupied after reset, and `pc` is 0x200. -/
theorem resetIsPcBounded : Obligations.ResetIsPcBounded := by
  have hreset : State.reset.PcBounded :=
    ⟨Nat.zero_le _, fun k hk => absurd hk (Nat.not_lt_zero k), by decide⟩
  exact ⟨hreset, fun font => pcBounded_congr hreset rfl rfl rfl⟩

end Sys2Proof.Proofs

/-! ### Registers and inputs -/

namespace Sys2Proof.Proofs

open Sys2Proof Sys2Proof.Machine

/-- Where `LD Vx,[I]` completes it was in range, and the registers above `x` are as before (R165). -/
theorem execLdVxMem_keepsReg {x r : Nibble} {s t : State} (h : execLdVxMem x s = .next t)
    (hrun : t.halted = false) (hr : x.toNat < r.toNat) : t.reg r = s.reg r := by
  have hx := x.isLt
  by_cases hin : s.i.toNat + 0 + (x.toNat + 1) ≤ 4096
  · obtain ⟨u, hu, -, hreg⟩ := loadRegs_go (x.toNat + 1) 0 s hin (by omega)
    obtain rfl : u.advance = t := Host.Outcome.next.inj ((congrArg Flow.finish hu).symm.trans h)
    rw [State.reg_advance, hreg, if_neg (by omega)]
  · obtain ⟨u, hu, -⟩ := loadRegs_raised (x.toNat + 1) 0 s (by omega) (by omega)
    obtain rfl := Host.Outcome.next.inj ((congrArg Flow.finish hu).symm.trans h)
    cases hrun

/-- Where `DRW` completes it was in range, and every register but `VF` is as before (R171). -/
theorem execDrw_keepsReg {x y n r : Nibble} {s t : State} (h : execDrw x y n s = .next t)
    (hrun : t.halted = false) (hr : r ≠ vf) : t.reg r = s.reg r := by
  by_cases hin : n.toNat = 0 ∨ s.i.toNat + 0 + n.toNat ≤ 4096
  · obtain ⟨d, hit, hd, -⟩ :=
      drawRows_go (startCol (s.reg x)) (startRow (s.reg y)) n.toNat 0 false s hin
    obtain rfl := Host.Outcome.next.inj ((congrArg Flow.finish hd).symm.trans h)
    rw [State.reg_advance, State.reg_setReg_ne _ _ hr, State.reg_withDisp]
  · obtain ⟨d, hd⟩ :=
      drawRows_raised (startCol (s.reg x)) (startRow (s.reg y)) n.toNat 0 false s (by omega) (by omega)
    obtain rfl := Host.Outcome.next.inj ((congrArg Flow.finish hd).symm.trans h)
    cases hrun

theorem writeReg_keepsReg {x r : Nibble} {b : Byte} {s t : State} (h : writeReg x b s = .next t)
    (hr : (r == x) = false) : t.reg r = s.reg r := by
  obtain rfl := Host.Outcome.next.inj h
  exact s.reg_setReg_ne b (ne_of_beq_false hr)

theorem writeFlagReg_keepsReg {x r : Nibble} {f b : Byte} {s t : State}
    (h : writeFlagReg x f b s = .next t) (hr : (r == x) = false) (hvf : r ≠ vf) :
    t.reg r = s.reg r := by
  obtain rfl := Host.Outcome.next.inj h
  exact s.setFlagThenReg_ne f b (ne_of_beq_false hr) hvf

/-- Settles O27: by the way each instruction writes registers, one by name, the flag and one by name, a
run from `V[0]` on, or none. -/
theorem registersChangeOnlyWhereNamed : Obligations.RegistersChangeOnlyWhereNamed := by
  intro i s t r hexec hrun hnamed hflag
  have hvf (hsets : setsFlag i = true) : r ≠ vf := fun h =>
    absurd ((hflag h).symm.trans hsets) Bool.false_ne_true
  cases i with
  | ldImm x kk => exact writeReg_keepsReg hexec hnamed
  | addImm x kk => exact writeReg_keepsReg hexec hnamed
  | ldReg x y => exact writeReg_keepsReg hexec hnamed
  | orReg x y => exact writeReg_keepsReg hexec hnamed
  | andReg x y => exact writeReg_keepsReg hexec hnamed
  | xorReg x y => exact writeReg_keepsReg hexec hnamed
  | rnd x kk => exact writeReg_keepsReg hexec hnamed
  | ldVxDT x => exact writeReg_keepsReg (b := s.dt) hexec hnamed
  | addReg x y => exact writeFlagReg_keepsReg hexec hnamed (hvf rfl)
  | sub x y => exact writeFlagReg_keepsReg hexec hnamed (hvf rfl)
  | shr x y => exact writeFlagReg_keepsReg hexec hnamed (hvf rfl)
  | subn x y => exact writeFlagReg_keepsReg hexec hnamed (hvf rfl)
  | shl x y => exact writeFlagReg_keepsReg hexec hnamed (hvf rfl)
  | ldVxMem x => exact execLdVxMem_keepsReg hexec hrun (Nat.not_le.mp (of_decide_eq_false hnamed))
  | drw x y n => exact execDrw_keepsReg hexec hrun (hvf rfl)
  | ldVxK x =>
    obtain rfl := Host.Outcome.next.inj hexec
    by_cases hkey : s.key = 0
    · exact State.reg_eq_of_v (if_pos hkey) r
    · exact (State.reg_eq_of_v (if_neg hkey) r).trans (s.reg_setReg_ne _ (ne_of_beq_false hnamed))
  | ret => obtain ⟨-, rfl⟩ | ⟨-, rfl⟩ := execRet_cases hexec <;> rfl
  | call nnn => obtain ⟨-, rfl⟩ | ⟨-, rfl⟩ := execCall_cases hexec <;> rfl
  | skp x => obtain ⟨-, rfl⟩ | rfl := execSkp_cases hexec <;> rfl
  | sknp x => obtain ⟨-, rfl⟩ | rfl := execSknp_cases hexec <;> rfl
  | ldB x => obtain ⟨m, -, rfl | ⟨-, rfl⟩⟩ := execLdB_cases hexec <;> rfl
  | ldMemVx x => obtain ⟨m, -, rfl | ⟨-, rfl⟩⟩ := execLdMemVx_cases hexec <;> rfl
  | _ =>
    obtain rfl := Host.Outcome.next.inj hexec
    rfl

/-! Replacing what the environment has put on the ports commutes with every piece that does not read
them. -/

/-- The state with another key latch and another byte on the random port (R30, R200). -/
def withInput (key : BitVec 16) (rand : Byte) (s : State) : State := { s with key := key, rand := rand }

/-- A flow with its state replaced. -/
def mapFlow (g : State → State) (f : Flow) : Flow :=
  match f with
  | .go s => .go (g s)
  | .raised c s => .raised c (g s)

section
variable (key : BitVec 16) (rand : Byte)

theorem finish_withInput {f : Flow} {t : State} (h : f.finish = .next t) :
    (mapFlow (withInput key rand) f).finish = .next (withInput key rand t) := by
  cases f with
  | go s =>
    obtain rfl := Host.Outcome.next.inj h
    rfl
  | raised c s =>
    obtain rfl := Host.Outcome.next.inj h
    rfl

theorem andThen_withInput {f : Flow} {next : State → Flow}
    (h : ∀ s, next (withInput key rand s) = mapFlow (withInput key rand) (next s)) :
    (mapFlow (withInput key rand) f).andThen next =
      mapFlow (withInput key rand) (f.andThen next) := by
  cases f with
  | go s => exact h s
  | raised c s => rfl

theorem write_withInput (a : Nat) (b : Byte) (s : State) :
    (withInput key rand s).write a b = mapFlow (withInput key rand) (s.write a b) := by
  by_cases h : a < 4096
  · rw [write_of_lt _ b h, write_of_lt _ b h]
    rfl
  · rw [write_of_ge _ b (Nat.not_lt.mp h), write_of_ge _ b (Nat.not_lt.mp h)]
    rfl

theorem storeRegs_withInput (n k : Nat) (s : State) :
    storeRegs n k (withInput key rand s) = mapFlow (withInput key rand) (storeRegs n k s) := by
  induction n generalizing k s with
  | zero => rfl
  | succ n ih =>
    rw [storeRegs, storeRegs, write_withInput, andThen_withInput key rand (ih (k + 1))]
    rfl

theorem effAddr_withInput (k : Nat) (s : State) :
    (withInput key rand s).effAddr k = s.effAddr k := rfl

theorem read_withInput (a : Nat) (s : State) : (withInput key rand s).read a = s.read a := rfl

theorem loadRegs_withInput (n k : Nat) (s : State) :
    loadRegs n k (withInput key rand s) = mapFlow (withInput key rand) (loadRegs n k s) := by
  induction n generalizing k s with
  | zero => rfl
  | succ n ih =>
    rw [loadRegs, loadRegs, effAddr_withInput, read_withInput]
    cases s.read (s.effAddr k) with
    | none => rfl
    | some b => exact ih (k + 1) (s.setReg (BitVec.ofNat 4 k) b)

theorem drawRows_withInput (x0 y0 n r : Nat) (hit : Bool) (s : State) :
    drawRows x0 y0 n r hit (withInput key rand s) =
      mapFlow (withInput key rand) (drawRows x0 y0 n r hit s) := by
  induction n generalizing r hit s with
  | zero => rfl
  | succ n ih =>
    rw [drawRows, drawRows, effAddr_withInput, read_withInput]
    cases s.read (s.effAddr r) with
    | none => rfl
    | some b =>
      exact ih (r + 1) (Canvas.drawByte { disp := s.disp, hit := hit } x0 (y0 + r) b).hit
        { s with disp := (Canvas.drawByte { disp := s.disp, hit := hit } x0 (y0 + r) b).disp }

/-- `LD B,Vx` makes three writes, one after the other. -/
theorem execLdB_withInput {x : Nibble} {s t : State} (h : execLdB x s = .next t) :
    execLdB x (withInput key rand s) = .next (withInput key rand t) := by
  refine Eq.trans (congrArg Flow.finish ?_) (finish_withInput key rand h)
  rw [write_withInput]
  refine andThen_withInput key rand fun u => ?_
  rw [write_withInput]
  exact andThen_withInput key rand fun w => write_withInput key rand _ _ w

/-- The pieces of several accesses commute with the replacement, and every other instruction but the four
readers is one update that names neither the latch nor the port. -/
theorem exec_withInput {i : Instr} {s t : State} (hreads : readsInput i = false)
    (h : exec i s = .next t) : exec i (withInput key rand s) = .next (withInput key rand t) := by
  cases i with
  | rnd x kk => cases hreads
  | skp x => cases hreads
  | sknp x => cases hreads
  | ldVxK x => cases hreads
  | call nnn =>
    obtain ⟨hlt, rfl⟩ | ⟨hge, rfl⟩ := execCall_cases h
    · exact exec_call_of_free (s := withInput key rand s) nnn hlt
    · exact exec_call_of_full (s := withInput key rand s) nnn hge
  | ret =>
    obtain ⟨hpos, rfl⟩ | ⟨hzero, rfl⟩ := execRet_cases h
    · exact exec_ret_of_pos (s := withInput key rand s) hpos
    · exact exec_ret_of_empty (s := withInput key rand s) hzero
  | drw x y n =>
    exact (congrArg Flow.finish (drawRows_withInput key rand _ _ n.toNat 0 false s)).trans
      (finish_withInput key rand h)
  | ldB x => exact execLdB_withInput key rand h
  | ldMemVx x =>
    exact (congrArg Flow.finish (storeRegs_withInput key rand (x.toNat + 1) 0 s)).trans
      (finish_withInput key rand h)
  | ldVxMem x =>
    exact (congrArg Flow.finish (loadRegs_withInput key rand (x.toNat + 1) 0 s)).trans
      (finish_withInput key rand h)
  | _ =>
    obtain rfl := Host.Outcome.next.inj h
    rfl

end

/-- Settles O29: the replacement of latch and port commutes with every instruction but the readers. -/
theorem inputsAreSeenOnlyByTheirReaders : Obligations.InputsAreSeenOnlyByTheirReaders :=
  fun _ _ _ key rand hreads hexec => exec_withInput key rand hreads hexec

end Sys2Proof.Proofs

/-! ### Steps and runs -/

namespace Sys2Proof.Proofs

open Sys2Proof Sys2Proof.Machine

/-- A cycle whose instruction completes goes through the gate and the publish (R190). -/
theorem step_of_completed {s t : State} {i : Instr} (hrun : s.halted = false)
    (hfetch : s.fetchDecode = .ok i) (hexec : exec i s.pollInput = .next t) (ht : t.halted = false) :
    step s = .next t.timerGate.publish := by
  rw [step_of_ok hrun hfetch, hexec, endCycle_of_running ht]

/-- A cycle whose instruction raises ends there (R218). -/
theorem step_of_raised {s t : State} {i : Instr} (hrun : s.halted = false)
    (hfetch : s.fetchDecode = .ok i) (hexec : exec i s.pollInput = .next t) (ht : t.halted = true) :
    step s = .next t := by
  rw [step_of_ok hrun hfetch, hexec, endCycle_of_raised ht]

/-- Settles O10: below 4095 the word of the two bytes at `pc` is fetched, and the step is that of its
instruction. -/
theorem stepRunsTheDecodedInstruction : Obligations.StepRunsTheDecodedInstruction := by
  intro s i t hrun hpc hdecode hexec
  have hfetch : s.fetchDecode = .ok i := fetchDecode_of_mapped (fetchWord_of_lt s hpc) hdecode
  exact ⟨step_of_raised hrun hfetch hexec, step_of_completed hrun hfetch hexec⟩

/-- Settles O11: the fetch at 4095 or more is an error with that address in its cause. -/
theorem fetchOutOfBoundsHalts : Obligations.FetchOutOfBoundsHalts := by
  intro s hrun hpc
  exact step_halts_of_fetchDecode_error hrun (fetchDecode_of_ge s hpc)

/-- Settles O9: the two bytes placed at `pc` and above it are the halves of the word, and joined they are
the word. -/
theorem placedWordIsFetched : Obligations.PlacedWordIsFetched := by
  intro s w hpc hw
  have hhigh : (s.withFetchWord 16 w).mem.byte s.pc.toNat = highByte (tableWord 16 w) :=
    (Memory.byte_set_ne _ _ (by omega)).trans (Memory.byte_set_same _ _ _)
  have hlow : (s.withFetchWord 16 w).mem.byte (s.pc.toNat + 1) = lowByte (tableWord 16 w) :=
    Memory.byte_set_same _ _ _
  refine ⟨tableWord 16 w, ?fetched, ?word⟩
  case fetched =>
    have hword := (congrArg₂ wordOfBytes hhigh hlow).trans (wordOfBytes_split (tableWord 16 w))
    exact (fetchWord_of_lt (s.withFetchWord 16 w) hpc).trans (congrArg some hword)
  case word =>
    rw [tableWord, BitVec.toNat_ofNat]
    omega

/-- After a run of events a key is as the last one that names it says (R191). -/
theorem foldl_applyKeyEvent_bit (events : List KeyEvent) (key : BitVec 16) (k : Nibble) :
    (events.foldl applyKeyEvent key).getLsbD k.toNat =
      match (events.filter (fun e => e.key == k)).getLast? with
      | none => key.getLsbD k.toNat
      | some e => e.pressed := by
  induction events using List.reverseRecOn with
  | nil => rfl
  | append_singleton events e ih =>
    rw [List.foldl_append, List.foldl_cons, List.foldl_nil, applyKeyEvent_bit, List.filter_append]
    by_cases hk : e.key = k
    · simp [hk]
    · simp [hk, ih]

/-- Settles O15: the poll folds the cycle's events into the latch, and has the frame of the poll. -/
theorem keyEventsTakeEffectInOrder : Obligations.KeyEventsTakeEffectInOrder := by
  intro s k
  have hframe : KeepsArchitecture s s.pollInput :=
    ⟨rfl, rfl, fun _ _ => rfl, fun _ => rfl, fun _ _ => rfl, ⟨rfl, fun _ => rfl⟩, ⟨rfl, rfl⟩, rfl⟩
  exact ⟨foldl_applyKeyEvent_bit s.cycleInput.events s.key k, hframe⟩

/-- Settles O16: the instruction does not write the counter, so the gate opens by the old one, on the
timers the instruction left. -/
theorem timerGateOpensEveryTenthCycle : Obligations.TimerGateOpensEveryTenthCycle := by
  intro s i t hrun htick hfetch hexec ht
  obtain ⟨hkeep : t.tick = s.tick, -⟩ := exec_keepsUnwritten hexec
  refine ⟨_, step_of_completed hrun hfetch hexec ht, ?tick, ?dt, ?st⟩
  case tick => rw [State.publish_tick, timerGate_tick_mod (hkeep ▸ htick), hkeep]
  case dt => rw [State.publish_dt, timerGate_dt_toNat, hkeep]
  case st => rw [State.publish_st, timerGate_st_toNat, hkeep]

/-- A step that ends running has counted one cycle (R194). -/
theorem step_running_tick {s t : State} (hstep : step s = .next t) (ht : t.halted = false)
    (htick : s.tick < 10) : t.tick = (s.tick + 1) % 10 := by
  obtain ⟨-, ⟨c, -, rfl⟩ | ⟨i, u, -, hexec, ⟨hu, rfl⟩ | ⟨-, rfl⟩⟩⟩ := step_cases hstep
  case inl => cases ht
  case inr.inl => exact absurd (ht.symm.trans hu) Bool.false_ne_true
  case inr.inr =>
    obtain ⟨hkeep : u.tick = s.tick, -⟩ := exec_keepsUnwritten hexec
    rw [State.publish_tick, timerGate_tick_mod (hkeep ▸ htick), hkeep]

/-- A run that ends running began so: a halted machine has no step (R197). -/
theorem running_of_runFor {n : Nat} {s t : State} (hrun : runFor n s = .next t)
    (ht : t.halted = false) : s.halted = false := by
  cases n with
  | zero =>
    obtain rfl := Host.Outcome.next.inj hrun
    exact ht
  | succ n =>
    obtain ⟨u, hstep, -⟩ := runFor_succ_cases hrun
    exact (step_cases hstep).1

/-- Settles O18: by induction on the run, whose first step counts one. -/
theorem tickCountsCompletedCycles : Obligations.TickCountsCompletedCycles := by
  intro n
  induction n with
  | zero =>
    intro s t htick hrun _
    obtain rfl := Host.Outcome.next.inj hrun
    exact (Nat.mod_eq_of_lt htick).symm
  | succ n ih =>
    intro s t htick hrun ht
    obtain ⟨u, hstep, hrest⟩ := runFor_succ_cases hrun
    have hu : u.tick = (s.tick + 1) % 10 :=
      step_running_tick hstep (running_of_runFor hrest ht) htick
    rw [ih u t (by omega) hrest ht, hu]
    omega

/-- One cycle of a machine at a jump to itself: the jump, the gate and the publish (R199). -/
theorem step_of_spinning {s : State} (hrun : s.halted = false) (hspin : s.spinsAtJump) :
    step s = .next (s.pollInput.jumpTo s.pc).timerGate.publish := by
  obtain ⟨nnn, hfetch, htarget⟩ := hspin
  rw [← htarget]
  exact step_of_completed hrun hfetch rfl hrun

/-- Spinning depends on `pc` and memory only. -/
theorem spinsAtJump_congr {s t : State} (hpc : t.pc = s.pc) (hmem : t.mem = s.mem)
    (hspin : s.spinsAtJump) : t.spinsAtJump := by
  obtain ⟨nnn, hfetch, htarget⟩ := hspin
  exact ⟨nnn, (fetchDecode_congr hpc hmem).trans hfetch, htarget.trans hpc.symm⟩

/-- The registers, `I`, `pc`, memory, display and stack of two states are the same data. -/
structure SameBesidesTimers (s t : State) : Prop where
  pc : t.pc = s.pc
  i : t.i = s.i
  v : t.v = s.v
  mem : t.mem = s.mem
  disp : t.disp = s.disp
  sp : t.sp = s.sp
  stack : t.stack = s.stack

theorem SameBesidesTimers.trans {s t u : State} (h : SameBesidesTimers s t)
    (h' : SameBesidesTimers t u) : SameBesidesTimers s u :=
  ⟨h'.pc.trans h.pc, h'.i.trans h.i, h'.v.trans h.v, h'.mem.trans h.mem, h'.disp.trans h.disp,
    h'.sp.trans h.sp, h'.stack.trans h.stack⟩

/-- The gate and the publish write the timers, the counter and the ports only. -/
theorem spinCycle_same (s : State) :
    SameBesidesTimers s (s.pollInput.jumpTo s.pc).timerGate.publish := by
  constructor <;> simp

/-- `n` cycles of a machine at a jump to itself. The first one leaves a machine that spins at the same
jump, with the counter one on, and each timer one lower when the counter was 9. -/
theorem runFor_of_spinning (n : Nat) (s : State) (hrun : s.halted = false) (htick : s.tick < 10)
    (hspin : s.spinsAtJump) :
    ∃ t, runFor n s = .next t ∧ t.halted = false ∧
      t.dt.toNat = s.dt.toNat - (s.tick + n) / 10 ∧ t.st.toNat = s.st.toNat - (s.tick + n) / 10 ∧
      SameBesidesTimers s t := by
  induction n generalizing s with
  | zero =>
    rw [Nat.add_zero, Nat.div_eq_of_lt htick]
    exact ⟨s, rfl, hrun, rfl, rfl, rfl, rfl, rfl, rfl, rfl, rfl, rfl⟩
  | succ n ih =>
    have hstep := step_of_spinning hrun hspin
    have hsame := spinCycle_same s
    have hhalted : (s.pollInput.jumpTo s.pc).timerGate.publish.halted = false := by simp [hrun]
    generalize hu : (s.pollInput.jumpTo s.pc).timerGate.publish = u at *
    have htick' : u.tick = (s.tick + 1) % 10 := hu ▸ timerGate_tick_mod htick
    have hdt : u.dt.toNat = s.dt.toNat - (if s.tick = 9 then 1 else 0) := hu ▸ timerGate_dt_toNat _
    have hst : u.st.toNat = s.st.toNat - (if s.tick = 9 then 1 else 0) := hu ▸ timerGate_st_toNat _
    have hcount : (if s.tick = 9 then 1 else 0) + (u.tick + n) / 10 = (s.tick + (n + 1)) / 10 := by
      split <;> omega
    obtain ⟨t, hrunFor, ht, htdt, htst, htsame⟩ :=
      ih u hhalted (by omega) (spinsAtJump_congr hsame.pc hsame.mem hspin)
    refine ⟨t, (runFor_succ_of_next n hstep).trans hrunFor, ht, ?dt, ?st, hsame.trans htsame⟩
    case dt => rw [htdt, hdt, Nat.sub_sub, hcount]
    case st => rw [htst, hst, Nat.sub_sub, hcount]

/-- Settles O19: what stays the same data reads the same. -/
theorem spinningMachineCountsDown : Obligations.SpinningMachineCountsDown := by
  intro n s hrun htick hspin
  obtain ⟨t, hrunFor, ht, hdt, hst, hsame⟩ := runFor_of_spinning n s hrun htick hspin
  refine ⟨t, hrunFor, ht, hdt, hst, hsame.pc, hsame.i, fun r _ => State.reg_eq_of_v hsame.v r,
    fun a => ?mem, fun cx cy => ?disp, hsame.sp, fun k => ?slot⟩
  case mem => rw [hsame.mem]
  case disp => rw [hsame.disp]
  case slot => rw [State.slot, State.slot, hsame.stack]

/-- Settles O20: by induction on `n`, along the first step. -/
theorem safeCyclesAreCompletedSteps : Obligations.SafeCyclesAreCompletedSteps := by
  intro n
  induction n with
  | zero =>
    intro s
    simp [safeFor, runFor]
  | succ n ih =>
    intro s
    cases hrun : s.halted with
    | true =>
      have hnone : ¬ ∃ t, runFor (n + 1) s = .next t ∧ t.halted = false := by
        rintro ⟨t, hrunFor, ht⟩
        exact absurd ((running_of_runFor hrunFor ht).symm.trans hrun) Bool.false_ne_true
      simp [safeFor, hrun, hnone]
    | false =>
      obtain ⟨u, hstep⟩ := runningMachineAlwaysSteps.1 s hrun
      rw [runFor_succ_of_next n hstep, ← ih u]
      simp [safeFor, hrun, hstep]

/-- Settles O57: in the gate cycle the timers the instruction left lose 1, and the publish takes the
`st` that the gate left. -/
theorem timerWrittenInGateCycleCountsDown : Obligations.TimerWrittenInGateCycleCountsDown := by
  intro x s hrun htick
  refine ⟨fun hfetch => ?ldDTVx, fun hfetch => ?ldSTVx⟩
  case ldDTVx =>
    refine ⟨_, step_of_completed hrun hfetch rfl hrun, ?dt, ?tick⟩
    case dt =>
      exact (timerGate_dt_toNat _).trans (congrArg ((s.reg x).toNat - ·) (if_pos htick))
    case tick => simp [State.timerGate_tick, htick]
  case ldSTVx =>
    refine ⟨_, _, step_of_completed hrun hfetch rfl hrun, ?st, ?tick, rfl, rfl⟩
    case st =>
      exact (timerGate_st_toNat _).trans (congrArg ((s.reg x).toNat - ·) (if_pos htick))
    case tick => simp [State.timerGate_tick, htick]

/-- The first load of a machine, before any cycle, places a program that fits (R74). -/
theorem load_of_fits {s : State} {bytes : List Byte} (hloaded : s.loaded = false)
    (hcycle : s.cycle = 0) (hfits : bytes.length ≤ 3584) :
    s.load bytes = .next { s with mem := s.mem.place 0x200 bytes, loaded := true } := by
  have hprogram : programFits bytes = true := decide_eq_true hfits
  simp [State.load, hloaded, hcycle, hprogram]

/-- A load after the first one is no operation of the machine (U8, D25). -/
theorem load_of_loaded {s : State} (hloaded : s.loaded = true) (bytes : List Byte) :
    s.load bytes = .refused .loadOutOfTurn := by
  simp [State.load, hloaded]

/-- Settles O6: the load into the reset state places the image and sets the flag. -/
theorem loadPlacesTheProgram : Obligations.LoadPlacesTheProgram := by
  intro font bytes hfits
  refine ⟨_, load_of_fits (s := State.resetWith font) rfl rfl hfits, fun k hk => ?placed,
    fun a ha => ?others, ?wf, rfl, load_of_loaded rfl⟩
  case placed =>
    rw [Memory.byte_place, if_pos (by omega), Nat.add_sub_cancel_left, List.getD_eq_getElem _ _ hk]
  case others => rw [Memory.byte_place, if_neg (by omega)]
  case wf => exact Memory.wf_place (wf_resetWith font) (by omega)

end Sys2Proof.Proofs

/-! ### The return stack -/

namespace Sys2Proof.Proofs

open Sys2Proof Sys2Proof.Machine

/-- Settles O32: a push and a jump, and the slot pushed is the old top. -/
theorem callPushesItsOwnAddress : Obligations.CallPushesItsOwnAddress := by
  intro nnn s hfree
  refine ⟨_, exec_call_of_free nnn hfree, toNat_zextAddr nnn, rfl, ?top, fun k hk => ?others, rfl,
    fun _ _ => rfl, fun _ => rfl, fun _ _ => rfl, ⟨rfl, rfl⟩, rfl, rfl, rfl, rfl, rfl, rfl, rfl, rfl,
    rfl⟩
  case top => rw [State.slot_jumpTo, slot_push s s.pc hfree, if_pos rfl]
  case others => rw [State.slot_jumpTo, slot_push s s.pc hfree, if_neg hk]

/-- Settles O34: a pop and a jump past the popped address. -/
theorem returnGoesPastThePoppedAddress : Obligations.ReturnGoesPastThePoppedAddress := by
  intro s hpos _
  exact ⟨_, exec_ret_of_pos hpos.ne', BitVec.toNat_add _ _, rfl, fun _ => rfl, rfl, fun _ _ => rfl,
    fun _ => rfl, fun _ _ => rfl, ⟨rfl, rfl⟩, rfl, rfl, rfl, rfl, rfl, rfl, rfl, rfl, rfl⟩

/-- Settles O36: the `RET` pops what the `CALL` pushed, since the subroutine has left the stack alone. -/
theorem callThenReturnResumesAfterTheCall : Obligations.CallThenReturnResumesAfterTheCall := by
  intro nnn s t u hfree hcall ⟨husp, huslot⟩
  obtain ⟨t', hcall', -, htsp, htop, hbelow, -⟩ := callPushesItsOwnAddress nnn s hfree
  obtain rfl : t' = t := Host.Outcome.next.inj (hcall'.symm.trans hcall)
  have hu : u.sp = s.sp + 1 := husp.trans htsp
  refine ⟨_, exec_ret_of_pos (by omega), ?pc, ?sp, fun k hk => ?slots⟩
  case pc => rw [State.jumpTo_pc, hu, Nat.add_sub_cancel, huslot, htop]
  case sp => rw [State.jumpTo_sp, State.pop_sp, hu, Nat.add_sub_cancel]
  case slots => rw [State.slot_jumpTo, State.slot_pop, huslot, hbelow k hk.ne]

end Sys2Proof.Proofs

/-! ### Flag arithmetic and the random byte -/

namespace Sys2Proof.Proofs

open Sys2Proof Sys2Proof.Machine

/-- The frame of a flag writer: `I`, every register but `VF` and `V[x]`, and everything outside the
registers. -/
theorem setFlagThenReg_frame (s : State) (x : Nibble) (f b : Byte) :
    (s.setFlagThenReg x f b).i = s.i ∧ KeepsRegsBut [x, vf] s (s.setFlagThenReg x f b) ∧
      KeepsOutsideRegs s (s.setFlagThenReg x f b) := by
  refine ⟨rfl, fun r hr => ?reg, fun _ => rfl, fun _ _ => rfl, ⟨rfl, fun _ => rfl⟩, ⟨rfl, rfl⟩,
    rfl, rfl, rfl, rfl, rfl, rfl, rfl, rfl, rfl⟩
  case reg =>
    obtain ⟨hx, hf⟩ : r ≠ x ∧ r ≠ vf := by simpa using hr
    exact s.setFlagThenReg_ne f b hx hf

/-- An instruction whose meaning is `writeFlagReg x f b` completes; for `x` other than 15 both bytes are
there afterwards. -/
theorem completesInRegs_of_writeFlagReg {i : Instr} {s : State} {x : Nibble} {post : State → Prop}
    (f b : Byte) (hexec : exec i s = writeFlagReg x f b s) (hx : x ≠ 15)
    (hpost : ∀ t : State, t.reg x = b → t.reg vf = f → post t) :
    CompletesInRegs i s [x, vf] post := by
  refine ⟨(s.setFlagThenReg x f b).advance, hexec, hpost _ ?written ?flag, rfl, ?frame⟩
  case written => exact s.setFlagThenReg_same x f b
  case flag => exact s.setFlagThenReg_vf f b hx
  case frame => exact setFlagThenReg_frame s x f b

/-- With `x = 15` the second write goes to the register of the first, so it is as if there were no
first (R140, D7). -/
theorem setFlagThenReg_vf_eq (s : State) (f b : Byte) : s.setFlagThenReg vf f b = s.setReg vf b := by
  simp [State.setFlagThenReg, State.setReg]

theorem writeFlagReg_vf (f b : Byte) (s : State) : writeFlagReg vf f b s = writeReg vf b s := by
  rw [writeFlagReg, writeReg, setFlagThenReg_vf_eq]

@[simp] theorem toNat_flagByte (c : Bool) : (flagByte c).toNat = if c then 1 else 0 := by
  cases c <;> rfl

/-! The result bytes of 41_alu.md section 7 as numbers. -/

theorem toNat_sub_byte (a b : Byte) : (a - b).toNat = (a.toNat + 256 - b.toNat) % 256 := by
  have hb := b.isLt
  rw [BitVec.toNat_sub]
  omega

theorem toNat_shiftRight_one (a : Byte) : (a >>> 1).toNat = a.toNat / 2 := by
  rw [BitVec.toNat_ushiftRight, Nat.shiftRight_one]

theorem toNat_shiftLeft_one (a : Byte) : (a <<< 1).toNat = 2 * a.toNat % 256 := by
  rw [BitVec.toNat_shiftLeft, Nat.shiftLeft_eq, Nat.mul_comm]

/-! The flags of 41_alu.md section 7 as numbers. -/

theorem toNat_carryFlag (a b : Byte) :
    (carryFlag a b).toNat = if a.toNat + b.toNat > 255 then 1 else 0 := by
  simp [carryFlag]

theorem toNat_greaterFlag (a b : Byte) :
    (greaterFlag a b).toNat = if a.toNat > b.toNat then 1 else 0 := by
  simp [greaterFlag]

theorem toNat_shrFlag (a : Byte) : (shrFlag a).toNat = a.toNat % 2 := by
  rw [shrFlag, toNat_flagByte, BitVec.getLsbD, Nat.testBit_zero]
  rcases Nat.mod_two_eq_zero_or_one a.toNat with h | h <;> simp [h]

/-- The low three bits of a byte are its value modulo 8 (R151, D8). -/
theorem and_seven_eq_one_iff (a : Byte) : a &&& 7 = 1 ↔ a.toNat % 8 = 1 := by
  rw [← BitVec.toNat_inj, BitVec.toNat_and]
  exact Eq.congr_left (Nat.and_two_pow_sub_one_eq_mod a.toNat 3)

theorem toNat_shlFlag (a : Byte) : (shlFlag a).toNat = if a.toNat % 8 = 1 then 1 else 0 := by
  rw [shlFlag, toNat_flagByte]
  simp only [beq_iff_eq, and_seven_eq_one_iff]

/-- Settles O40: each instruction is `writeFlagReg` of its flag and its result, and the numbers of both
are those of the table. -/
theorem flagArithmeticTable : Obligations.FlagArithmeticTable := by
  rintro x y s a b hx rfl rfl
  refine ⟨?add, ?sub, ?subn, ?shr, ?shl⟩
  case add =>
    exact completesInRegs_of_writeFlagReg _ _ rfl hx fun t hreg hflag =>
      ⟨hreg ▸ BitVec.toNat_add _ _, hflag ▸ toNat_carryFlag _ _⟩
  case sub =>
    exact completesInRegs_of_writeFlagReg _ _ rfl hx fun t hreg hflag =>
      ⟨hreg ▸ toNat_sub_byte _ _, hflag ▸ toNat_greaterFlag _ _⟩
  case subn =>
    exact completesInRegs_of_writeFlagReg _ _ rfl hx fun t hreg hflag =>
      ⟨hreg ▸ toNat_sub_byte _ _, hflag ▸ toNat_greaterFlag _ _⟩
  case shr =>
    exact completesInRegs_of_writeFlagReg _ _ rfl hx fun t hreg hflag =>
      ⟨hreg ▸ toNat_shiftRight_one _, hflag ▸ toNat_shrFlag _⟩
  case shl =>
    exact completesInRegs_of_writeFlagReg _ _ rfl hx fun t hreg hflag =>
      ⟨hreg ▸ toNat_shiftLeft_one _, hflag ▸ toNat_shlFlag _⟩

/-- Settles O41: with `x = 15` each is `writeReg` of its result. -/
theorem flagArithmeticOnRegister15KeepsTheResult :
    Obligations.FlagArithmeticOnRegister15KeepsTheResult := by
  rintro y s a b rfl rfl
  refine ⟨?add, ?sub, ?subn, ?shr, ?shl⟩
  case add =>
    exact completesInRegs_of_writeReg _ (writeFlagReg_vf _ _ s) fun t hreg =>
      hreg ▸ BitVec.toNat_add _ _
  case sub =>
    exact completesInRegs_of_writeReg _ (writeFlagReg_vf _ _ s) fun t hreg =>
      hreg ▸ toNat_sub_byte _ _
  case subn =>
    exact completesInRegs_of_writeReg _ (writeFlagReg_vf _ _ s) fun t hreg =>
      hreg ▸ toNat_sub_byte _ _
  case shr =>
    exact completesInRegs_of_writeReg _ (writeFlagReg_vf _ _ s) fun t hreg =>
      hreg ▸ toNat_shiftRight_one _
  case shl =>
    exact completesInRegs_of_writeReg _ (writeFlagReg_vf _ _ s) fun t hreg =>
      hreg ▸ toNat_shiftLeft_one _

/-- Settles O42: `RND` is `writeReg` of the port's byte under the mask. -/
theorem randomByteIsMasked : Obligations.RandomByteIsMasked := by
  rintro x kk r s rfl
  exact completesInRegs_of_writeReg (s.rand &&& kk) rfl fun _ ht _ => by rw [ht, BitVec.getLsbD_and]

end Sys2Proof.Proofs

/-! ### The index register, the font and stored code -/

namespace Sys2Proof.Proofs

open Sys2Proof Sys2Proof.Machine

/-- Settles O44: `setI` of the 16-bit sum. -/
theorem indexAddWrapsAtSixteenBits : Obligations.IndexAddWrapsAtSixteenBits := by
  intro x s
  refine ⟨(s.setI (s.i + zextByte (s.reg x))).advance, rfl, ?sum, setI_advance_frame s _⟩
  case sum => rw [State.advance_i, State.setI_i, BitVec.toNat_add, toNat_zextByte]

/-- Settles O58: `I` is 5 times the index, and the bytes there are still those of the font. -/
theorem ldFPointsAtTheGlyph : Obligations.LdFPointsAtTheGlyph := by
  rintro font x s d r hkeep rfl hd hr
  have haddr : (s.setI (glyphAddr (s.reg x))).advance.effAddr r = 5 * (s.reg x).toNat + r := by
    rw [State.effAddr, State.advance_i, State.setI_i, toNat_glyphAddr]
  refine ⟨_, rfl, ?byte⟩
  case byte =>
    rw [haddr]
    exact (hkeep _).trans (byte_resetWith_of_lt font (by omega))

/-- Where `LD [I],Vx` completes it was in range, and only memory has changed (R164). -/
theorem execLdMemVx_running {x : Nibble} {s t : State} (h : execLdMemVx x s = .next t)
    (ht : t.halted = false) :
    s.i.toNat + x.toNat ≤ 4095 ∧ ∃ m, t = State.advance { s with mem := m } ∧
      ∀ k, k ≤ x.toNat → m.byte (s.i.toNat + k) = s.reg (BitVec.ofNat 4 k) := by
  by_cases hin : s.i.toNat + x.toNat ≤ 4095
  · obtain ⟨m, hm, hbyte, -⟩ := storeRegs_go (x.toNat + 1) 0 s (by omega)
    refine ⟨hin, m, Host.Outcome.next.inj (h.symm.trans (congrArg Flow.finish hm)), fun k hk => ?_⟩
    rw [hbyte, if_pos (by omega), Nat.add_sub_cancel_left]
  · obtain ⟨m, hm, -⟩ := storeRegs_raised (x.toNat + 1) 0 s (by omega) (by omega)
    obtain rfl := Host.Outcome.next.inj (h.symm.trans (congrArg Flow.finish hm))
    cases ht

/-- Settles O48: the advance takes `pc` to `I`, where the first two bytes stored are `V[0]` and `V[1]`. -/
theorem storeIntoTheNextWordIsFetched : Obligations.StoreIntoTheNextWordIsFetched := by
  intro x s t _ hx hi hexec ht
  obtain ⟨hin, m, rfl, hbyte⟩ := execLdMemVx_running hexec ht
  have hpc : (State.advance { s with mem := m }).pc.toNat = s.i.toNat :=
    (toNat_add_small (a := s.pc) (by omega) (by decide)).trans hi.symm
  have hlt : (State.advance { s with mem := m }).pc.toNat < 4095 := by omega
  refine ⟨_, fetchWord_of_lt _ hlt, ?word⟩
  case word =>
    rw [toNat_wordOfBytes, hpc, State.advance_mem]
    exact congrArg₂ (256 * ·.toNat + ·.toNat) (hbyte 0 (Nat.zero_le _)) (hbyte 1 hx)

end Sys2Proof.Proofs

/-! ### Drawing, the keypad and the timers -/

namespace Sys2Proof.Proofs

open Sys2Proof Sys2Proof.Machine

/-- `DRW` in range: a new display and the collision flag in `VF`, and nothing else but `pc` (R171,
R174). -/
theorem execDrw_of_le (x y n : Nibble) (s : State) (h : n = 0 ∨ s.i.toNat + n.toNat ≤ 4096) :
    ∃ d hit, execDrw x y n s =
        .next (State.advance (State.setReg { s with disp := d } vf (flagByte hit))) ∧
      (∀ cx cy, cx < 64 → cy < 32 → Display.cell d cx cy = (Display.cell s.disp cx cy ^^
        spriteBit s ((s.reg x).toNat % 64) ((s.reg y).toNat % 32) n.toNat cx cy)) ∧
      (hit = true ↔ ∃ cx cy, cx < 64 ∧ cy < 32 ∧
        spriteBit s ((s.reg x).toNat % 64) ((s.reg y).toNat % 32) n.toNat cx cy = true ∧
        Display.cell s.disp cx cy = true) := by
  have hin : n.toNat = 0 ∨ s.i.toNat + 0 + n.toNat ≤ 4096 := h.imp (congrArg BitVec.toNat) id
  obtain ⟨d, hit, hd, hcell, hhit⟩ :=
    drawRows_go ((s.reg x).toNat % 64) ((s.reg y).toNat % 32) n.toNat 0 false s hin
  refine ⟨d, hit, ?_, hcell, hhit.trans (or_iff_right Bool.false_ne_true)⟩
  rw [execDrw, startCol_eq, startRow_eq, hd, finish_go]

/-- Settles O50: the flag is the byte of "some cell under a set bit was on". -/
theorem drawXorsTheClippedSprite : Obligations.DrawXorsTheClippedSprite := by
  rintro x y n s x0 y0 rfl rfl hin
  obtain ⟨d, hit, hexec, hcell, hhit⟩ := execDrw_of_le x y n s hin
  refine ⟨_, hexec, hcell, ?flag, rfl, rfl, fun r hr => ?regs, fun _ => rfl, ⟨rfl, fun _ => rfl⟩,
    ⟨rfl, rfl⟩, rfl, rfl, rfl, rfl, rfl, rfl, rfl, rfl, rfl⟩
  case flag =>
    rw [State.reg_advance, State.reg_setReg_same]
    cases hit with
    | true => exact .inl ⟨rfl, hhit.mp rfl⟩
    | false =>
      refine .inr ⟨rfl, fun cx cy hx hy hbit => ?_⟩
      by_contra hon
      exact Bool.false_ne_true (hhit.mpr ⟨cx, cy, hx, hy, hbit, Bool.not_eq_false _ ▸ hon⟩)
  case regs => exact State.reg_setReg_ne _ _ (List.ne_of_not_mem_cons hr)

/-- Settles O51: the rows from the first address out of range on raise there. -/
theorem drawPastTheEndOfMemoryHalts : Obligations.DrawPastTheEndOfMemoryHalts := by
  intro x y n s hn hout
  have hpos : 0 < n.toNat := Nat.pos_of_ne_zero fun h0 => hn (BitVec.eq_of_toNat_eq h0)
  obtain ⟨d, hd⟩ :=
    drawRows_raised (startCol (s.reg x)) (startRow (s.reg y)) n.toNat 0 false s hout hpos
  exact ⟨_, congrArg Flow.finish hd, rfl, rfl⟩

/-- The mask of a sprite depends on memory and `I` only. -/
theorem spriteBit_congr {s t : State} (hi : t.i = s.i) (hmem : KeepsMemory s t)
    (x0 y0 n cx cy : Nat) : spriteBit t x0 y0 n cx cy = spriteBit s x0 y0 n cx cy := by
  rw [spriteBit, spriteBit, State.effAddr, State.effAddr, hi, hmem]

/-- Settles O52: the first draw leaves the mask of the second as it was, so the second undoes the first,
and a cell under it is on then exactly when it had been off. -/
theorem drawingTwiceRestoresTheBuffer : Obligations.DrawingTwiceRestoresTheBuffer := by
  intro x y n s t u hx hy hin hfirst hsecond
  obtain ⟨t', ht', hcell, -, -, hi, hregs, hmem, -⟩ :=
    drawXorsTheClippedSprite x y n s _ _ rfl rfl hin
  obtain rfl : t' = t := Host.Outcome.next.inj (ht'.symm.trans hfirst)
  obtain ⟨u', hu', hcell', hflag, -⟩ := drawXorsTheClippedSprite x y n t' _ _ rfl rfl (hi ▸ hin)
  obtain rfl : u' = u := Host.Outcome.next.inj (hu'.symm.trans hsecond)
  have hkeep {r : Nibble} (hr : r ≠ 15) : t'.reg r = s.reg r := hregs r (by simpa using hr)
  simp only [hkeep hx, hkeep hy, spriteBit_congr hi hmem] at hcell' hflag
  have hwason {cx cy : Nat} (hcx : cx < 64) (hcy : cy < 32)
      (hbit : spriteBit s ((s.reg x).toNat % 64) ((s.reg y).toNat % 32) n.toNat cx cy = true) :
      Display.cell t'.disp cx cy = !Display.cell s.disp cx cy := by
    rw [hcell cx cy hcx hcy, hbit, Bool.xor_true]
  refine ⟨fun cx cy hcx hcy => ?restored, ?collision⟩
  case restored => rw [hcell' cx cy hcx hcy, hcell cx cy hcx hcy, Bool.xor_assoc, Bool.xor_self,
    Bool.xor_false]
  case collision =>
    obtain ⟨hone, cx, cy, hcx, hcy, hbit, hon⟩ | ⟨hzero, hoff⟩ := hflag
    · rw [hwason hcx hcy hbit, Bool.not_eq_true'] at hon
      exact ⟨fun _ => ⟨cx, cy, hcx, hcy, hbit, hon⟩, fun _ => hone⟩
    · constructor
      · intro hone
        exact absurd (hzero.symm.trans hone) (by decide)
      · rintro ⟨cx, cy, hcx, hcy, hbit, hwasoff⟩
        have hnow := (hwason hcx hcy hbit).symm.trans (hoff cx cy hcx hcy hbit)
        rw [hwasoff] at hnow
        cases hnow

/-- A key skip on an index below 16 is `skipIf` on the level of the key, or on its opposite (R180,
R181). -/
theorem exec_skp_of_lt {x : Nibble} {s : State} (h : (s.reg x).toNat < 16) :
    exec (.skp x) s = .next (s.skipIf (s.keyDown (s.reg x).toNat)) :=
  if_pos (decide_eq_true h)

theorem exec_sknp_of_lt {x : Nibble} {s : State} (h : (s.reg x).toNat < 16) :
    exec (.sknp x) s = .next (s.skipIf (!s.keyDown (s.reg x).toNat)) :=
  if_pos (decide_eq_true h)

/-- Settles O53: both are skips on a level. -/
theorem keySkipsTestTheLatch : Obligations.KeySkipsTestTheLatch := by
  intro x s hlt
  exact ⟨completesAsSkip_of_exec (exec_skp_of_lt hlt) Iff.rfl,
    completesAsSkip_of_exec (exec_sknp_of_lt hlt) (Bool.not_eq_true' _ ▸ Iff.rfl)⟩

/-- Settles O54: an index of 16 or more raises in the state the skip was given. -/
theorem keySkipsOnAbsentKeyHalt : Obligations.KeySkipsOnAbsentKeyHalt := by
  intro x s hge
  have hbad : ¬ keyIndexOk (s.reg x) = true := fun h => Nat.not_lt.mpr hge (of_decide_eq_true h)
  exact ⟨exec_halts_of_raise (if_neg hbad), exec_halts_of_raise (if_neg hbad)⟩

/-- The lowest pressed key is pressed where some key is (R182). -/
theorem lowestKey_pressed {pressed : BitVec 16} {k : Nat} (hk : k < 16)
    (hdown : pressed.getLsbD k = true) : pressed.getLsbD (lowestKey pressed).toNat = true := by
  obtain ⟨low, hlow⟩ : ∃ low, (List.range 16).find? (fun k => pressed.getLsbD k) = some low :=
    Option.isSome_iff_exists.mp (List.find?_isSome.mpr ⟨k, List.mem_range.mpr hk, hdown⟩)
  have hlt : low < 16 := List.mem_range.mp (List.mem_of_find?_eq_some hlow)
  rw [lowestKey, hlow, Option.getD_some, ofNat4_toNat hlt]
  exact List.find?_some hlow

/-- Whichever key `KEY_PICK` names, the one reported is pressed where some key is (R182, D13). -/
theorem pickKey_pressed {pressed : BitVec 16} {k : Nat} (hk : k < 16)
    (hdown : pressed.getLsbD k = true) : pressed.getLsbD (pickKey pressed).toNat = true := by
  have hlow := lowestKey_pressed hk hdown
  unfold pickKey
  by_cases hsingle : pressed = 1#16 <<< (lowestKey pressed).toNat
  · rw [if_pos hsingle]
    exact hlow
  · rw [if_neg hsingle]
    by_cases hpick : pressed.getLsbD (Config.keyPick pressed).toNat = true
    · rw [if_pos hpick]
      exact hpick
    · rw [if_neg hpick]
      exact hlow

/-- No key is down exactly where the latch is all zero (log 24). -/
theorem key_eq_zero_of_none_down {s : State} (h : ∀ k, k < 16 → s.keyDown k = false) :
    s.key = 0 :=
  BitVec.eq_of_getLsbD_eq fun k hk => (h k hk).trans BitVec.getLsbD_zero.symm

theorem exec_ldVxK_of_idle {x : Nibble} {s : State} (h : s.key = 0) :
    exec (.ldVxK x) s = .next s := by
  change execLdVxK x s = _
  rw [execLdVxK, if_pos h, if_pos h]

theorem exec_ldVxK_of_pressed {x : Nibble} {s : State} (h : s.key ≠ 0) :
    exec (.ldVxK x) s = writeReg x ((pickKey s.key).setWidth 8) s := by
  change execLdVxK x s = _
  rw [execLdVxK, if_neg h, if_neg h]
  rfl

/-- Settles O55: idle, the state is the next state; else it is `writeReg` of the key picked. -/
theorem keyWaitStoresAPressedKey : Obligations.KeyWaitStoresAPressedKey := by
  intro x s
  refine ⟨fun hnone => ?idle, fun k hk hdown => ?pressed⟩
  case idle =>
    exact ⟨s, exec_ldVxK_of_idle (key_eq_zero_of_none_down hnone), rfl, rfl, fun _ _ => rfl,
      fun _ => rfl, fun _ _ => rfl, ⟨rfl, fun _ => rfl⟩, ⟨rfl, rfl⟩, rfl, rfl, rfl, rfl, rfl, rfl, rfl,
      rfl, rfl⟩
  case pressed =>
    have hkey : s.key ≠ 0 := by
      intro h0
      rw [State.keyDown, h0] at hdown
      exact Bool.false_ne_true (BitVec.getLsbD_zero.symm.trans hdown)
    have hwidth : ((pickKey s.key).setWidth 8).toNat = (pickKey s.key).toNat :=
      BitVec.toNat_setWidth_of_le (by decide)
    refine completesInRegs_of_writeReg _ (exec_ldVxK_of_pressed hkey) fun t ht => ?_
    rw [ht, hwidth]
    exact ⟨(pickKey s.key).isLt, pickKey_pressed hk hdown⟩

/-- Settles O56: one is `writeReg` of `dt`, the others are an update of one timer. -/
theorem timerMovesCopyOneByte : Obligations.TimerMovesCopyOneByte := by
  intro x s
  refine ⟨completesInRegs_of_writeReg s.dt rfl fun _ ht => ht, ?ldDTVx, ?ldSTVx⟩
  case ldDTVx =>
    exact ⟨_, rfl, rfl, rfl, rfl, rfl, fun _ _ => rfl, fun _ => rfl, fun _ _ => rfl,
      ⟨rfl, fun _ => rfl⟩, rfl, rfl, rfl, rfl, rfl, rfl, rfl, rfl, rfl⟩
  case ldSTVx =>
    exact ⟨_, rfl, rfl, rfl, rfl, rfl, fun _ _ => rfl, fun _ => rfl, fun _ _ => rfl,
      ⟨rfl, fun _ => rfl⟩, rfl, rfl, rfl, rfl, rfl, rfl, rfl, rfl, rfl⟩

end Sys2Proof.Proofs
